-- ==== Sys2Proof/Word.lean ====
section
/-! DEFINITION. The words of PQP: bytes, 2-bit codes, ASCII text, and one word of each of the four
transaction formats (spec 10_state.md R26, 30_encoding.md R60 to R64). -/

namespace Sys2Proof

/-- An unsigned 8-bit value: an intensity, a level, a mask, a packed pixel (R9, R10). -/
abbrev Byte := BitVec 8

/-- The 2-bit code, or rank, of a level (R66). -/
abbrev Code := BitVec 2

/-- A sequence of 8-bit ASCII characters, each given by its code (R26, R72). -/
abbrev Text := List Byte

/-- A word of format F-PIX: LAST, AP, R, G, B, A (R62). -/
abbrev PixWord := BitVec 34

/-- A word of format F-PCK: R, G, B, A (R63). -/
abbrev PckWord := BitVec 32

/-- A word of format F-TXE: BLAST, BYTE (R64). -/
abbrev TxeWord := BitVec 9

/-- The input ports: a transaction's format is told by the port it arrives on (R60). -/
inductive Port
  | qnt
  | pck
  | pix
  | txr
deriving DecidableEq, Repr

/-- One transaction as it stands at an input port (R60). -/
inductive PortWord
  | qnt (w : Byte)
  | pck (w : PckWord)
  | pix (w : PixWord)
  | txr (w : TxeWord)
deriving DecidableEq, Repr

/-- The fixed length, in bits, of a port's format (R60). -/
def Port.width : Port → Nat
  | .qnt => 8
  | .pck => 32
  | .pix => 34
  | .txr => 9

def PortWord.port : PortWord → Port
  | .qnt _ => .qnt
  | .pck _ => .pck
  | .pix _ => .pix
  | .txr _ => .txr

/-- The word's bits as a number, bit 0 its least significant. -/
def PortWord.bits : PortWord → Nat
  | .qnt w => w.toNat
  | .pck w => w.toNat
  | .pix w => w.toNat
  | .txr w => w.toNat

end Sys2Proof
end

