-- ==== Sys2Proof/Syntax.lean ====
section
/-! DEFINITION. The operations of PQP, one constructor per row of spec/opcode_table.json
(spec 30_encoding.md R68). -/

namespace Sys2Proof

/-- An operation with its operands (R61 to R64, R71). The ignored bits 7:0 of a PIX3 word are no
operand (R67). -/
inductive Instr
  /-- QNT i: quantize one channel intensity (R81). -/
  | qnt (i : Byte)
  /-- PCK r, g, b, a: pack four levels (R101). -/
  | pck (r g b a : Byte)
  /-- PIX4[.L] r, g, b, a: convert one pixel with alpha (R115). -/
  | pix4 (last : Bool) (r g b a : Byte)
  /-- PIX3[.L] r, g, b: convert one pixel without alpha (R116). -/
  | pix3 (last : Bool) (r g b : Byte)
  /-- TXE[.L] byte: render one byte (R142). -/
  | txe (blast : Bool) (byte : Byte)
deriving DecidableEq, Repr

end Sys2Proof
end

