-- ==== Sys2Proof/Decode.lean ====
section
/-! DEFINITION. Decoding a transaction word by the port it arrives on, and encoding
(spec 30_encoding.md R60 to R64, R68, R71). Every word of a format is legal (R69); what is refused,
by name, is a number that is no word of a format. -/

namespace Sys2Proof

/-- Why a number is no transaction word. -/
inductive DecodeError
  /-- The number has a bit above the format's length: it cannot be presented at the port (R60, D3). -/
  | wordTooWide (p : Port)
  /-- No row of the table has this many bits. -/
  | noSuchFormat (nbits : Nat)
deriving DecidableEq, Repr

/-- The LAST bit of an F-PIX word (R62). -/
def lastOf (w : PixWord) : Bool := w.getLsbD 33

/-- The AP bit of an F-PIX word (R62). -/
def alphaPresent (w : PixWord) : Bool := w.getLsbD 32

/-- The operation a transaction stands for: the port selects it, and within F-PIX bit 32, AP
(R60, R68). -/
def decode : PortWord → Instr
  | .qnt w => .qnt w
  | .pck w => .pck (w.extractLsb' 24 8) (w.extractLsb' 16 8) (w.extractLsb' 8 8) (w.extractLsb' 0 8)
  | .pix w =>
    if alphaPresent w then
      .pix4 (lastOf w) (w.extractLsb' 24 8) (w.extractLsb' 16 8) (w.extractLsb' 8 8)
        (w.extractLsb' 0 8)
    else
      .pix3 (lastOf w) (w.extractLsb' 24 8) (w.extractLsb' 16 8) (w.extractLsb' 8 8)
  | .txr w => .txe (w.getLsbD 8) (w.extractLsb' 0 8)

/-- The number `w` as a word of the port's format. -/
def readWord (p : Port) (w : Nat) : Except DecodeError PortWord :=
  if w < 2 ^ p.width then
    match p with
    | .qnt => .ok (.qnt (BitVec.ofNat 8 w))
    | .pck => .ok (.pck (BitVec.ofNat 32 w))
    | .pix => .ok (.pix (BitVec.ofNat 34 w))
    | .txr => .ok (.txr (BitVec.ofNat 9 w))
  else .error (.wordTooWide p)

/-- The port whose format has `nbits` bits, exactly or rounded up to whole bytes. The four lengths
differ both ways, so a length names one format. DESIGN CHOICE (log 27), safe. -/
def portOfBits : Nat → Option Port
  | 8 => some .qnt
  | 32 => some .pck
  | 34 => some .pix
  | 40 => some .pix
  | 9 => some .txr
  | 16 => some .txr
  | _ => none

/-- The table's word of `nbits` bits: these formats are one word each, so its bits are numbered as
the format numbers them. -/
def readTableWord (nbits w : Nat) : Except DecodeError PortWord :=
  match portOfBits nbits with
  | some p => readWord p w
  | none => .error (.noSuchFormat nbits)

def decodeTableWord (nbits w : Nat) : Option Instr :=
  match readTableWord nbits w with
  | .ok pw => some (decode pw)
  | .error _ => none

/-- The F-PIX word of its fields (R62). -/
def pixWord (last ap : Bool) (r g b a : Byte) : PixWord :=
  BitVec.ofBool last ++ BitVec.ofBool ap ++ r ++ g ++ b ++ a

/-- The F-TXE word of its fields (R64). -/
def txeWord (blast : Bool) (byte : Byte) : TxeWord := BitVec.ofBool blast ++ byte

/-- The word of an operation, the canonical one for PIX3, whose ignored field is 0x00 (R71). -/
def encode : Instr → PortWord
  | .qnt i => .qnt i
  | .pck r g b a => .pck (r ++ g ++ b ++ a)
  | .pix4 last r g b a => .pix (pixWord last true r g b a)
  | .pix3 last r g b => .pix (pixWord last false r g b 0x00#8)
  | .txe blast byte => .txr (txeWord blast byte)

/-- One row of the operation map (R68). -/
structure OpRow where
  mnemonic : String
  port : Port
  mask : Nat
  pattern : Nat
deriving DecidableEq, Repr

/-- The row of an operation: its port and its mask and match values (R68). -/
def rowOf : Instr → OpRow
  | .qnt _ => ⟨"QNT", .qnt, 0x00, 0x00⟩
  | .pck _ _ _ _ => ⟨"PCK", .pck, 0x00000000, 0x00000000⟩
  | .pix4 _ _ _ _ _ => ⟨"PIX4", .pix, 0x100000000, 0x100000000⟩
  | .pix3 _ _ _ _ => ⟨"PIX3", .pix, 0x100000000, 0x000000000⟩
  | .txe _ _ => ⟨"TXE", .txr, 0x000, 0x000⟩

/-- The five rows (R68). -/
def opTable : List OpRow :=
  [⟨"QNT", .qnt, 0x00, 0x00⟩,
   ⟨"PCK", .pck, 0x00000000, 0x00000000⟩,
   ⟨"PIX4", .pix, 0x100000000, 0x100000000⟩,
   ⟨"PIX3", .pix, 0x100000000, 0x000000000⟩,
   ⟨"TXE", .txr, 0x000, 0x000⟩]

/-- A word selects a row of its own port with (w & mask) = match (R68). -/
def OpRow.selects (row : OpRow) (w : PortWord) : Bool :=
  decide (row.port = w.port) && decide (w.bits &&& row.mask = row.pattern)

end Sys2Proof
end

