-- ==== Sys2Proof/Machine/Constants.lean ====
section
/-! DEFINITION. The hardwired constants, each named once (spec 00_scope.md R7, 10_state.md R23) and
the ASCII codes of the characters TXR writes (30_encoding.md R72). UNVERIFIED (log 19), unsafe:
the literals are the source's and are not audited against the original program (U1). -/

namespace Sys2Proof.Machine

/-- T0, inclusive upper bound of level 0 (R7, R81). -/
def t0 : Byte := 42#8
/-- T1, inclusive upper bound of level 85. -/
def t1 : Byte := 128#8
/-- T2, inclusive upper bound of level 170. -/
def t2 : Byte := 212#8

/-- LEVELS, in rank order (R7, R66). -/
def level0 : Byte := 0x00#8
def level1 : Byte := 0x55#8
def level2 : Byte := 0xAA#8
def level3 : Byte := 0xFF#8

/-- MASK_A, MASK_R, MASK_G, MASK_B (R7, R65). -/
def maskA : Byte := 0xC0#8
def maskR : Byte := 0x30#8
def maskG : Byte := 0x0C#8
def maskB : Byte := 0x03#8

/-- A_DEFAULT, the alpha of a pixel without alpha (R7, R67). -/
def aDefault : Byte := 0xFF#8

/-- ROWLEN, the entries of a text row, whatever the platform (R7, R146). -/
def rowLen : Nat := 144

/-- MAXPIX_SMALL and MAXPIX_LARGE, the HOST's bounds on the pixel count (R7, R169). -/
def maxPixSmall : Nat := 144 * 168
def maxPixLarge : Nat := 180 * 180

/-- PRESUMED (log 10), unsafe for the byte values of TXT only: the ASCII codes, which R72 takes
from general knowledge. -/
def chZero : Byte := 0x30#8
def chLowerA : Byte := 0x61#8
def chUpperA : Byte := 0x41#8
def chX : Byte := 0x78#8
def chComma : Byte := 0x2C#8
def chSpace : Byte := 0x20#8
def chLF : Byte := 0x0A#8
def chCR : Byte := 0x0D#8

end Sys2Proof.Machine
end

