-- ==== Sys2Proof/Config.lean ====
section
/-! DEFINITION. The parameters the source leaves open (spec 00_scope.md R8, 92_eei_decisions.md
section 6). A run carries them in State; the values they have at reset are one opaque constant. -/

namespace Sys2Proof

/-- Which of the two smaller-display names is the always rejected smallest-tag (D21, R175). -/
inductive SmallerTag
  | tintin
  | snowy
deriving DecidableEq, Repr, Inhabited

/-- The open parameters (R8, R23), constants of a run. -/
structure Params where
  /-- HAS_TXR: the text renderer is present (D22). -/
  hasTxr : Bool
  /-- TXT_PREFIX, the opening text of the array literal (R140). -/
  txtPrefix : Text
  /-- TXT_SUFFIX, the closing text (R140). -/
  txtSuffix : Text
  /-- TXT_BRK, newline and indentation (R140). -/
  txtBrk : Text
  /-- BREAK_AT_ZERO: a row break precedes entry 0 (R139). -/
  breakAtZero : Bool
  /-- LAT, the latency, which no rule reads (R192). -/
  lat : Nat
  /-- SMALLEST_TAG (R175, D21). -/
  smallestTag : SmallerTag
  /-- The command-line spellings of the three tags (D21). -/
  spellTintin : Text
  spellSnowy : Text
  spellChalk : Text
deriving DecidableEq, Repr, Inhabited

/-- DESIGN CHOICE (log 1), safe: the parameters of the block that comes out of reset. The spec
gives no value, so nothing can be proved of this one. -/
opaque Config.params : Params

end Sys2Proof
end

