-- ==== Sys2Proof/Machine/State.lean ====
section
/-! DEFINITION. The state of PQP and of the HOST around it, as plain data (spec 10_state.md,
20_memory.md, 60_exceptions.md). INVENTORY.md lists each field with the rule that names it. -/

namespace Sys2Proof.Machine

/-- A byte sequence space: (index, byte) cells, indices strictly rising. An index that is not listed
holds no byte (R41). DEDUCED (log 9), safe. -/
abbrev Memory := List Host.Cell

/-- The canonical form: indices strictly rise. An unlisted index has no value, so no entry can equal
one. -/
def Memory.wf : Memory → Bool
  | [] => true
  | [_] => true
  | (a, _) :: (b, v) :: m => decide (a < b) && Memory.wf ((b, v) :: m)

/-- What QNT offers: its level and its code (R26, R80). -/
structure QntOut where
  lvl : Byte
  code : Code
deriving DecidableEq, Repr

/-- What PIX offers: the packed pixel and the copy of LAST (R26). -/
structure PixOut where
  p : Byte
  pLast : Bool
deriving DecidableEq, Repr

/-- A pixel as the decoder gives it: a 3-tuple or a 4-tuple of intensities (R40). -/
inductive Pixel
  | rgb (r g b : Byte)
  | rgba (r g b a : Byte)
deriving DecidableEq, Repr

/-- The three platforms (R175). -/
inductive Platform
  | smallest
  | mid
  | large
deriving DecidableEq, Repr

/-- One command `convert <platform> <input-path> <output-path>` given to the HOST, each argument
present or missing, with what the image decoder, an external collaborator, makes of the input: the
pixels, or nothing when it cannot parse it (R165, R166, R170). DESIGN CHOICE (log 14, log 15),
safe. -/
structure Invocation where
  platform : Option Text
  inputPath : Option Text
  outputPath : Option Text
  image : Option (List Pixel)
deriving DecidableEq, Repr

/-- The HOST's terminal error classes (R166 to R170). -/
inductive ErrorClass
  | usage
  | decode
  | invalidPlatform
  | unsupportedPlatform
  | imageTooLarge
deriving DecidableEq, Repr

/-- What the outside sees of a finished invocation: the contents of the two files, the text file
only with TXR, or the error class (R172, R174, R176, R190). DESIGN CHOICE (log 29), safe but for the empty
list at reset. -/
inductive Report
  | success (outputPath : Text) (raw : List Byte) (text : Option Text)
  | failure (cls : ErrorClass)
deriving DecidableEq, Repr

/-- Everything the spec gives the machine. -/
structure State where
  /-- The constants of the run (R23); no step writes them (log 1). -/
  params : Params
  /-- The reset input is asserted (R185, log 11). -/
  resetIn : Bool
  /-- Words offered at port QNT.I, oldest first (R26, log 5). -/
  qntIn : List Byte
  /-- Words offered at port PCK, oldest first (R26, log 5). -/
  pckIn : List PckWord
  /-- PIXIN, the frame the HOST presents (R40). -/
  pixin : List PixWord
  /-- Words delivered to port TXR and not yet rendered: the link from PIX (R26, log 6,
  log 30). -/
  txrIn : List TxeWord
  /-- The stream position of PIX (R22). -/
  k : Nat
  /-- The stream position of TXR (R25). -/
  j : Nat
  /-- The frame's LAST transaction has been consumed (R19, R119, log 7). -/
  ended : Bool
  /-- OUT (R41). -/
  out : Memory
  /-- TXT (R42). -/
  txt : Text
  /-- Ports LVL and CODE of QNT: the latest output, nothing while VALID is 0 (R26, R28, log 4). -/
  qntOut : Option QntOut
  /-- Port P of PCK. -/
  pckOut : Option Byte
  /-- Ports P and P_LAST of PIX. -/
  pixOut : Option PixOut
  /-- Port CH of TXR. -/
  txrOut : Option Text
  /-- Invocations of the HOST not yet started, oldest first (R165). -/
  jobs : List Invocation
  /-- The invocation whose run is in progress; it holds PLATFORM (R30). -/
  active : Option Invocation
  /-- The reports of finished invocations, oldest first (R172, R176). -/
  reports : List Report
deriving DecidableEq, Repr

/-- Why the machine stops. The core raises nothing (R160), and an error of the HOST is a report. -/
inductive Fault
  /-- Raised by step when no port offers a transaction and the HOST has nothing to do: no step is
  enabled (R119, R187). DEDUCED (log 8), safe. -/
  | noEnabledStep
deriving DecidableEq, Repr

/-- What the model gives no meaning. -/
inductive Refusal
  /-- Raised by an arm of exec whose instruction has no meaning yet: no arm is such. Safe. -/
  | notModelled (mnemonic : String)
  /-- Raised by TXE on a block without TXR, where the port does not exist (D22). DEDUCED (log 2),
  safe. -/
  | txrAbsent
  /-- Raised by the HOST's launch of an image of no pixels, which passes every check and cannot be
  presented (R145, D10, U12, log 13). Safe. -/
  | emptyFrame
deriving DecidableEq, Repr

/-- The state right after reset (R28): positions 0, OUT and TXT empty, nothing in flight, every
VALID 0. The parameters are not reset and nothing is known of them (log 1); nothing is offered to
the block or to the HOST yet (log 20). -/
def State.reset : State where
  params := Config.params
  resetIn := false
  qntIn := []
  pckIn := []
  pixin := []
  txrIn := []
  k := 0
  j := 0
  ended := false
  out := []
  txt := []
  qntOut := none
  pckOut := none
  pixOut := none
  txrOut := none
  jobs := []
  active := none
  reports := []

end Sys2Proof.Machine
end

