-- ==== Sys2Proof/Machine/Operands.lean ====
section
/-! DEFINITION. Operand forms (spec 30_encoding.md R67): every operand is an 8-bit field as it stands;
the one operand that is assembled is the alpha of a pixel without alpha. -/

namespace Sys2Proof.Machine

/-- The alpha operand of a pixel tuple (R67, R118). -/
def alphaOf : Pixel → Byte
  | .rgb _ _ _ => aDefault
  | .rgba _ _ _ a => a

/-- The F-PIX word the HOST presents for a tuple: AP and A for a 4-tuple, the canonical word for a
3-tuple (R71, R189). -/
def Pixel.word (last : Bool) : Pixel → PixWord
  | .rgb r g b => pixWord last false r g b 0x00#8
  | .rgba r g b a => pixWord last true r g b a

/-- The frame of a pixel sequence: decoder order, LAST on the final pixel and on no other (R189). -/
def frameWords : List Pixel → List PixWord
  | [] => []
  | [t] => [t.word true]
  | t :: u :: ts => t.word false :: frameWords (u :: ts)

/-- The tuple an F-PIX word carries (R62, R67). -/
def pixelOf (w : PixWord) : Pixel :=
  if alphaPresent w then
    .rgba (w.extractLsb' 24 8) (w.extractLsb' 16 8) (w.extractLsb' 8 8) (w.extractLsb' 0 8)
  else
    .rgb (w.extractLsb' 24 8) (w.extractLsb' 16 8) (w.extractLsb' 8 8)

end Sys2Proof.Machine
end

