-- ==== Sys2Proof/Machine/Ops.lean ====
section
/-! DEFINITION. The named operations over the sequence spaces, the ports and the run: MemRead and
MemWrite (spec 00_scope.md R12, 42_pixel_pipeline.md R125), Emit (20_memory.md R42), the start of a
run (10_state.md R28), and what an error of the HOST does (60_exceptions.md R172). -/

namespace Sys2Proof.Machine

/-- The byte at an index of OUT, if one was written. -/
def Memory.read : Memory → Nat → Option Byte
  | [], _ => none
  | (a, b) :: m, x => if a = x then some b else Memory.read m x

/-- Set one byte, keeping the canonical form. -/
def Memory.write : Memory → Nat → Byte → Memory
  | [], x, v => [(x, v)]
  | (a, b) :: m, x, v =>
    if x < a then (x, v) :: (a, b) :: m
    else if x = a then (x, v) :: m
    else (a, b) :: Memory.write m x v

/-- The bytes in index order: OUT as a sequence (R41). -/
def Memory.bytes (m : Memory) : List Byte := m.map Prod.snd

/-- The cells of a byte sequence that starts at index `a`. -/
def Memory.cellsFrom (a : Nat) : List Byte → Memory
  | [] => []
  | b :: bs => (a, b) :: Memory.cellsFrom (a + 1) bs

/-- MemRead(PIXIN, k): the transaction at the stream position, if the frame has one (R40, R119). -/
def State.memReadPixin (s : State) : Option PixWord := s.pixin[s.k]?

/-- MemWrite(OUT, k, 1, v): the byte goes to the index of the stream position (R41, R125). -/
def State.memWriteOut (s : State) (v : Byte) : State :=
  { s with out := Memory.write s.out s.k v }

/-- QNT offers an output transaction (R26). -/
def State.offerQnt (s : State) (o : QntOut) : State := { s with qntOut := some o }

/-- PCK offers an output transaction (R26). -/
def State.offerPck (s : State) (p : Byte) : State := { s with pckOut := some p }

/-- PIX offers P and P_LAST, which are also TXR's BYTE and BLAST when the block has TXR
(R26, log 6). -/
def State.offerPix (s : State) (v : Byte) (last : Bool) : State :=
  { s with
    pixOut := some ⟨v, last⟩
    txrIn := if s.params.hasTxr then s.txrIn ++ [txeWord last v] else s.txrIn }

/-- The stream position of PIX after a transaction, and whether the frame has ended (R22, R115,
R119). -/
def State.advanceK (s : State) (last : Bool) : State :=
  { s with k := if last then 0 else s.k + 1, ended := last }

/-- The pixel step PIX4 and PIX3 share once the byte is known (R115, R116). -/
def State.putPixel (s : State) (v : Byte) (last : Bool) : State :=
  ((s.memWriteOut v).offerPix v last).advanceK last

/-- Emit(TXT, t), with the same characters on port CH (R42, R142). -/
def State.emit (s : State) (t : Text) : State :=
  { s with txt := s.txt ++ t, txrOut := some t }

/-- The stream position of TXR after an entry (R25, R142). -/
def State.advanceJ (s : State) (blast : Bool) : State :=
  { s with j := if blast then 0 else s.j + 1 }

/-- The state of the block at the start of a run, which is the state reset leaves (R28, R185): what
the block holds is cleared, and what the HOST and the outside hold is not. DESIGN CHOICE (log 30),
unsafe: every word waiting at TXR is taken as in flight and discarded, one the outside offered there
too, while words waiting at QNT and PCK stand. -/
def State.clearBlock (s : State) : State :=
  { s with
    txrIn := []
    k := 0
    j := 0
    ended := false
    out := []
    txt := []
    qntOut := none
    pckOut := none
    pixOut := none
    txrOut := none }

/-- The reset input is served: the block is cleared and nothing else changes (R185, R198).
DESIGN CHOICE (log 11), unsafe: PIXIN stands, so a frame that is still presented, of a run that has
not begun, is under way, or has ended with its outputs not taken, is presented anew from index 0.
After the HOST has taken a run's outputs PIXIN is empty, and the block waits. -/
def State.applyReset (s : State) : State := { s.clearBlock with resetIn := false }

/-- The HOST starts the core on a frame (R176, R185, R186). -/
def State.startRun (s : State) (inv : Invocation) (frame : List PixWord) : State :=
  { s.clearBlock with pixin := frame, active := some inv }

/-- An invocation is over, failed or delivered: nothing of it stays in the block, its frame is no
longer presented, and its report is added (R19, R172, R186). DEDUCED (log 23, log 24), safe. -/
def State.endRun (s : State) (r : Report) : State :=
  { s.clearBlock with pixin := [], active := none, reports := s.reports ++ [r] }

/-- Taking an error of the HOST, of whatever class: terminal, no state saved, no handler; the core
is not started, OUT and TXT are empty, and the class is reported (R172, R173). -/
def State.raiseHost (s : State) (cls : ErrorClass) : State := s.endRun (.failure cls)

/-- The HOST takes OUT and TXT whole at the end of a run, after which the block waits for a new frame
(R186, R187, R190). -/
def State.collect (s : State) (inv : Invocation) : State :=
  s.endRun (.success (inv.outputPath.getD []) (Memory.bytes s.out)
    (if s.params.hasTxr then some s.txt else none))

end Sys2Proof.Machine
end

