-- ==== Sys2Proof/Machine/Packer.lean ====
section
/-! DEFINITION. Unit PCK, the pixel packer (spec 41_packer.md). -/

namespace Sys2Proof.Machine

/-- Mask each input with its own mask and OR the four (R101). Total on every four bytes: on inputs
that are not levels this is the spec's own decision D5 (R105, log 3), unsafe there. -/
def pack (r g b a : Byte) : Byte :=
  (a &&& maskA) ||| (r &&& maskR) ||| (g &&& maskG) ||| (b &&& maskB)

/-- PCK r, g, b, a (R100, R101). -/
def execPck (r g b a : Byte) (s : State) : Host.Outcome State Fault Refusal :=
  .next (s.offerPck (pack r g b a))

end Sys2Proof.Machine
end

