-- ==== Sys2Proof/Machine/Flags.lean ====
section
/-! DEFINITION. PQP has no flags and no condition codes (spec 10_state.md R21). What stands nearest to
one is QNT's comparator stage, three wires of one evaluation that nothing holds
(40_quantizer.md R82), and the encoder that reads them (R83). -/

namespace Sys2Proof.Machine

/-- The comparator outputs c0, c1, c2 (R82). -/
def comparators (i : Byte) : Bool × Bool × Bool :=
  (decide (t0 < i), decide (t1 < i), decide (t2 < i))

/-- The encoder as a sum: the number of comparators that fired (R83). -/
def encoderSum (c0 c1 c2 : Bool) : Code :=
  BitVec.ofNat 2 (c0.toNat + c1.toNat + c2.toNat)

/-- The encoder as its two bit equations (R83). -/
def encoderBits (c0 c1 c2 : Bool) : Code :=
  BitVec.ofBool c1 ++ BitVec.ofBool ((c0 && !c1) || c2)

/-- Level expansion: the code written four times (R84). -/
def expand (c : Code) : Byte := c ++ c ++ c ++ c

end Sys2Proof.Machine
end

