-- ==== Sys2Proof/Machine/Quantizer.lean ====
section
/-! DEFINITION. Unit QNT, the channel quantizer (spec 40_quantizer.md). -/

namespace Sys2Proof.Machine

/-- The quantized level of an intensity (R81). -/
def quantize (i : Byte) : Byte :=
  if i ≤ t0 then level0
  else if i ≤ t1 then level1
  else if i ≤ t2 then level2
  else level3

/-- The rank of an intensity's level: the column CODE of R81's table. -/
def rank (i : Byte) : Code :=
  if i ≤ t0 then 0#2
  else if i ≤ t1 then 1#2
  else if i ≤ t2 then 2#2
  else 3#2

/-- The code of a level: its lowest two bits (R84, R103). -/
def codeOf (l : Byte) : Code := l.extractLsb' 0 2

/-- QNT i (R80, R81). -/
def execQnt (i : Byte) (s : State) : Host.Outcome State Fault Refusal :=
  .next (s.offerQnt ⟨quantize i, rank i⟩)

end Sys2Proof.Machine
end

