-- ==== Sys2Proof/Machine/Pixel.lean ====
section
/-! DEFINITION. Unit PIX, the per-pixel pipeline and the frame map (spec 42_pixel_pipeline.md). -/

namespace Sys2Proof.Machine

/-- Quantize every channel alike, alpha too, then pack (R117, R121). -/
def pixel (r g b a : Byte) : Byte :=
  pack (quantize r) (quantize g) (quantize b) (quantize a)

/-- PIX4 (R115). -/
def execPix4 (last : Bool) (r g b a : Byte) (s : State) : Host.Outcome State Fault Refusal :=
  .next (s.putPixel (pixel r g b a) last)

/-- PIX3: the alpha operand is the constant A_DEFAULT (R116). -/
def execPix3 (last : Bool) (r g b : Byte) (s : State) : Host.Outcome State Fault Refusal :=
  .next (s.putPixel (pixel r g b aDefault) last)

/-- The byte of one pixel tuple (R118). -/
def px : Pixel → Byte
  | .rgb r g b => pixel r g b aDefault
  | .rgba r g b a => pixel r g b a

/-- The frame function (R118). -/
def convert (frame : List Pixel) : List Byte := frame.map px

/-- The byte of the pixel an F-PIX word carries. -/
def wordByte (w : PixWord) : Byte := px (pixelOf w)

end Sys2Proof.Machine
end

