-- ==== Sys2Proof/Machine/TextRenderer.lean ====
section
/-! DEFINITION. Unit TXR, the array-literal text renderer (spec 43_text_renderer.md). Its strings are
parameters, of which nothing is assumed (R140). -/

namespace Sys2Proof.Machine

/-- One lowercase hexadecimal digit (R72, R136). -/
def hexDigit (d : BitVec 4) : Byte :=
  if d.toNat < 10 then chZero + BitVec.ofNat 8 d.toNat
  else chLowerA + BitVec.ofNat 8 d.toNat - 10#8

/-- Two digits, the most significant first (R136). -/
def hex2 (b : Byte) : Text := [hexDigit (b.extractLsb' 4 4), hexDigit (b.extractLsb' 0 4)]

/-- The four characters of an entry (R137). -/
def entry (b : Byte) : Text := [chZero, chX] ++ hex2 b

/-- Comma and space, after every entry but the last of the frame (R138); it stands before a row break
too (R139, D29, log 18). -/
def separator : Text := [chComma, chSpace]

/-- The row break before entry `j`, if there is one: rows of 144 entries, and before entry 0 as the
parameter says (R139, C8, log 18). -/
def rowBreak (p : Params) (j : Nat) : Text :=
  if j % rowLen = 0 ∧ (0 < j ∨ p.breakAtZero = true) then p.txtBrk else []

/-- The characters one TXE appends at position `j` (R142). -/
def emission (p : Params) (j : Nat) (blast : Bool) (b : Byte) : Text :=
  (if j = 0 then p.txtPrefix else []) ++ rowBreak p j ++ entry b ++
    (if blast then p.txtSuffix else separator)

/-- TXE (R142). A block without TXR has no such port (D22, log 2). -/
def execTxe (blast : Bool) (b : Byte) (s : State) : Host.Outcome State Fault Refusal :=
  if s.params.hasTxr then
    .next ((s.emit (emission s.params s.j blast b)).advanceJ blast)
  else .refused .txrAbsent

/-- piece(j) of a sequence of `n` bytes (R141). -/
def piece (p : Params) (n j : Nat) (b : Byte) : Text :=
  rowBreak p j ++ entry b ++ (if j + 1 < n then separator else [])

/-- render: the text of a byte sequence, with no meaning for the empty one (R141, R145, log 13). -/
def render (p : Params) (bs : List Byte) : Option Text :=
  if bs = [] then none
  else some (p.txtPrefix ++ (bs.mapIdx fun j b => piece p bs.length j b).flatten ++ p.txtSuffix)

/-- The number of row breaks in the text of `n` entries (R147). -/
def breakCount (p : Params) (n : Nat) : Nat :=
  if p.breakAtZero then (n + rowLen - 1) / rowLen else (n + rowLen - 1) / rowLen - 1

/-- The value of a hexadecimal digit, of either case, if the character is one. -/
def hexValue (c : Byte) : Option (BitVec 4) :=
  if chZero ≤ c ∧ c.toNat < chZero.toNat + 10 then
    some (BitVec.ofNat 4 (c.toNat - chZero.toNat))
  else if chLowerA ≤ c ∧ c.toNat < chLowerA.toNat + 6 then
    some (BitVec.ofNat 4 (c.toNat - chLowerA.toNat + 10))
  else if chUpperA ≤ c ∧ c.toNat < chUpperA.toNat + 6 then
    some (BitVec.ofNat 4 (c.toNat - chUpperA.toNat + 10))
  else none

/-- The byte that two characters write, most significant digit first. -/
def hexByte (h l : Byte) : Option Byte :=
  match hexValue h, hexValue l with
  | some u, some v => some (u ++ v)
  | _, _ => none

/-- The byte of an occurrence of 0x at the head of the text: outer none where there is no
occurrence, inner none where two hexadecimal digits do not follow. -/
def occurrence : Text → Option (Option Byte)
  | c :: d :: h :: l :: _ => if c = chZero ∧ d = chX then some (hexByte h l) else none
  | [c, d, _] => if c = chZero ∧ d = chX then some none else none
  | [c, d] => if c = chZero ∧ d = chX then some none else none
  | _ => none

/-- parse: scan from the left for every occurrence of 0x and read the two digits after it (R143). A
text in which digits do not follow has no parse. DESIGN CHOICE (log 28), safe. -/
def parse : Text → Option (List Byte)
  | [] => some []
  | c :: t =>
    match occurrence (c :: t), parse t with
    | none, r => r
    | some (some b), some bs => some (b :: bs)
    | some _, _ => none

end Sys2Proof.Machine
end

