-- ==== Sys2Proof/Machine/Dispatch.lean ====
section
/-! DEFINITION. The meaning of each operation, one arm a constructor (spec 30_encoding.md R68). -/

namespace Sys2Proof.Machine

def exec (i : Instr) (s : State) : Host.Outcome State Fault Refusal :=
  match i with
  | .qnt v => Sys2Proof.Machine.execQnt v s
  | .pck r g b a => Sys2Proof.Machine.execPck r g b a s
  | .pix4 last r g b a => Sys2Proof.Machine.execPix4 last r g b a s
  | .pix3 last r g b => Sys2Proof.Machine.execPix3 last r g b s
  | .txe blast byte => Sys2Proof.Machine.execTxe blast byte s

end Sys2Proof.Machine
end

