-- ==== Sys2Proof/Machine/Driver.lean ====
section
/-! DEFINITION. The HOST around the core: its checks, its errors, and its moves (spec 60_exceptions.md
R165 to R176, 70_reset_and_hazards.md R188 to R190). -/

namespace Sys2Proof.Machine

/-- The platform a command-line string names, if it is one of the three tags: chalk is the large-tag,
SMALLEST_TAG the smallest-tag, the other small display the mid-tag (R175, D21). DESIGN CHOICE
(log 17), unsafe: of equal spellings the first in the order tintin, snowy, chalk counts. -/
def platformOf (p : Params) (tag : Text) : Option Platform :=
  if tag = p.spellTintin then
    some (if p.smallestTag = .tintin then .smallest else .mid)
  else if tag = p.spellSnowy then
    some (if p.smallestTag = .snowy then .smallest else .mid)
  else if tag = p.spellChalk then some .large
  else none

/-- too_large(N, platform), both comparisons strict (R169). -/
def tooLarge (n : Nat) (plat : Platform) : Bool :=
  (decide (maxPixSmall < n) && (decide (plat = .smallest) || decide (plat = .mid))) ||
  (decide (maxPixLarge < n) && decide (plat = .large))

/-- The checks that follow decoding, on a platform string and the decoded pixels (R167 to R169). -/
def checkPlatform (p : Params) (tag : Text) (pixels : List Pixel) :
    Except ErrorClass (List Pixel) :=
  match platformOf p tag with
  | none => .error .invalidPlatform
  | some .smallest => .error .unsupportedPlatform
  | some plat => if tooLarge pixels.length plat then .error .imageTooLarge else .ok pixels

/-- The HOST's checks in the order of R171, the spec's own decision D19 (log 12), unsafe for the
class reported when two apply. -/
def checkInvocation (p : Params) (inv : Invocation) : Except ErrorClass (List Pixel) :=
  match inv.platform, inv.inputPath, inv.outputPath with
  | some tag, some _, some _ =>
    match inv.image with
    | none => .error .decode
    | some pixels => checkPlatform p tag pixels
  | _, _, _ => .error .usage

/-- The HOST begins an invocation: an error is reported and the core not started; else the frame is
presented (R172, R176, R188, R189). -/
def launch (s : State) (inv : Invocation) (rest : List Invocation) :
    Host.Outcome State Fault Refusal :=
  match checkInvocation s.params inv with
  | .error cls => .next ({ s with jobs := rest }.raiseHost cls)
  | .ok [] => .refused .emptyFrame
  | .ok (t :: ts) => .next ({ s with jobs := rest }.startRun inv (frameWords (t :: ts)))

/-- The HOST's move when no transaction is offered: take the outputs of a run that has ended, or
begin the next invocation; a run that has not ended is not touched (R119, R189, R190, log 8). -/
def hostMove (s : State) : Host.Outcome State Fault Refusal :=
  match s.active with
  | some inv => if s.ended then .next (s.collect inv) else .fault .noEnabledStep
  | none =>
    match s.jobs with
    | inv :: rest => launch s inv rest
    | [] => .fault .noEnabledStep

/-- The process exit code: zero or some other value, which the spec leaves open (R174, D32,
log 16). -/
inductive ExitCode
  | zero
  | nonZero
deriving DecidableEq, Repr

def exitCode : Report → ExitCode
  | .success _ _ _ => .zero
  | .failure _ => .nonZero

/-- Which kind of message a failed run issues; its text and its stream are open (R172, D33,
log 16). -/
inductive Message
  | usageMessage
  | errorMessage
deriving DecidableEq, Repr

def messageOf : Report → Option Message
  | .success _ _ _ => none
  | .failure .usage => some .usageMessage
  | .failure .invalidPlatform => some .usageMessage
  | .failure .decode => some .errorMessage
  | .failure .unsupportedPlatform => some .errorMessage
  | .failure .imageTooLarge => some .errorMessage

end Sys2Proof.Machine
end

