-- ==== Sys2Proof/Machine/Fetch.lean ====
section
/-! DEFINITION. Which transaction is served next, and how one is placed to be served
(spec 10_state.md R26 and R27, 42_pixel_pipeline.md R119). -/

namespace Sys2Proof.Machine

/-- The transaction served next, with the state after its port has given it up. The ports are served
in the order QNT, PCK, TXR, PIX; the units share nothing but the PIX to TXR link, so the order is
seen in no output (R24, R53). DESIGN CHOICE (log 5), unsafe for claims about the order of steps of
different units. PIX reads PIXIN[k] and leaves PIXIN as it is (R40). -/
def fetch (s : State) : Option (PortWord × State) :=
  match s.qntIn, s.pckIn, s.txrIn with
  | w :: rest, _, _ => some (.qnt w, { s with qntIn := rest })
  | [], w :: rest, _ => some (.pck w, { s with pckIn := rest })
  | [], [], w :: rest => some (.txr w, { s with txrIn := rest })
  | [], [], [] =>
    if s.ended then none
    else
      match s.memReadPixin with
      | some w => some (.pix w, s)
      | none => none

/-- The frame with `w` at index `k`, zero words filling a gap before it. -/
def placeAt (frame : List PixWord) (k : Nat) (w : PixWord) : List PixWord :=
  frame.take k ++ List.replicate (k - frame.length) 0 ++ w :: frame.drop (k + 1)

/-- The transaction is presented so that it is the next one served (log 20): at the head of its port,
with the ports served before it quiet; a pixel at PIXIN[k] of a frame that has not ended; a text
transaction on a block that has TXR. -/
def State.present (s : State) : PortWord → State
  | .qnt w => { s with resetIn := false, qntIn := w :: s.qntIn }
  | .pck w => { s with resetIn := false, qntIn := [], pckIn := w :: s.pckIn }
  | .txr w =>
    { s with
      resetIn := false
      qntIn := []
      pckIn := []
      txrIn := w :: s.txrIn
      params := { s.params with hasTxr := true } }
  | .pix w =>
    { s with
      resetIn := false
      qntIn := []
      pckIn := []
      txrIn := []
      ended := false
      pixin := placeAt s.pixin s.k w }

end Sys2Proof.Machine
end

