-- ==== Sys2Proof/Machine/Step.lean ====
section
/-! DEFINITION. One step: the reset input, else the next transaction, else the HOST's move
(spec 00_scope.md R16, 42_pixel_pipeline.md R119, 70_reset_and_hazards.md R185). -/

namespace Sys2Proof.Machine

/-- One step of the machine. -/
def step (s : State) : Host.Outcome State Fault Refusal :=
  if s.resetIn then .next s.applyReset
  else
    match fetch s with
    | some (w, s') => exec (decode w) s'
    | none => hostMove s

/-- `s` with the table's word of `nbits` bits presented so that the very next step runs it; a number
that is no word changes nothing (log 20). -/
def State.withFetchWord (s : State) (nbits w : Nat) : State :=
  match readTableWord nbits w with
  | .ok pw => s.present pw
  | .error _ => s

end Sys2Proof.Machine
end

