-- ==== Sys2Proof/WellFormed.lean ====
section
/-! DEFINITION. What the spec asks of an input: the contract of PCK (spec 30_encoding.md R69), the
framing of a frame (42_pixel_pipeline.md R119), the constraints on TXR's strings
(43_text_renderer.md R140). The machine gives every word its effect whether or not these hold; they
are premises of the rules that need them. -/

namespace Sys2Proof

/-- One of the four quantized levels (R66). -/
def isLevel (v : Byte) : Bool :=
  v == Machine.level0 || v == Machine.level1 || v == Machine.level2 || v == Machine.level3

/-- Every operand satisfies the operation's contract: only PCK has one that an 8-bit field can break
(R69, R100). -/
def Instr.inContract : Instr → Bool
  | .qnt _ => true
  | .pck r g b a => isLevel r && isLevel g && isLevel b && isLevel a
  | .pix4 _ _ _ _ _ => true
  | .pix3 _ _ _ _ => true
  | .txe _ _ => true

/-- A frame as R119 and R189 ask for it: at least one transaction, LAST on the final one and on no
other. -/
def frameWf : List PixWord → Bool
  | [] => false
  | [w] => lastOf w
  | w :: v :: ws => !lastOf w && frameWf (v :: ws)

/-- Every character is an ASCII code (R140, R144). -/
def isAscii (t : Text) : Bool := t.all fun c => decide (c.toNat < 128)

/-- The two characters 0x, a zero and a lowercase x, stand somewhere in the text (R140). -/
def has0x : Text → Bool
  | [] => false
  | [_] => false
  | c :: d :: t => (c == Machine.chZero && d == Machine.chX) || has0x (d :: t)

/-- The text begins with a newline: LF, or CR LF (R140). -/
def beginsWithNewline : Text → Bool
  | [] => false
  | [c] => c == Machine.chLF
  | c :: d :: _ => c == Machine.chLF || (c == Machine.chCR && d == Machine.chLF)

/-- The constraints on TXT_PREFIX, TXT_SUFFIX and TXT_BRK (R140). -/
def Params.textOk (p : Params) : Bool :=
  isAscii p.txtPrefix && isAscii p.txtSuffix && isAscii p.txtBrk &&
  !has0x p.txtPrefix && !has0x p.txtSuffix && !has0x p.txtBrk &&
  p.txtSuffix.head? != some Machine.chX && beginsWithNewline p.txtBrk

end Sys2Proof
end

