-- ==== Sys2Proof/Safety.lean ====
section
/-! DEFINITION. What claims about runs speak of: several steps, a loaded frame, an idle HOST, and the
invariant that ties OUT and TXT to PIXIN (spec 20_memory.md R41, R42, R47, R49, R53). -/

namespace Sys2Proof.Machine

/-- `n` steps, stopping at the first fault or refusal. -/
def stepN : Nat → State → Host.Outcome State Fault Refusal
  | 0, s => .next s
  | n + 1, s =>
    match step s with
    | .next t => stepN n t
    | .fault r => .fault r
    | .refused r => .refused r

/-- The operations of a list one after another, stopping at the first fault or refusal. -/
def execAll : List Instr → State → Host.Outcome State Fault Refusal
  | [], s => .next s
  | i :: is, s =>
    match exec i s with
    | .next t => execAll is t
    | .fault r => .fault r
    | .refused r => .refused r

/-- An outcome with its next state changed by `f`. -/
def mapNext (f : State → State) :
    Host.Outcome State Fault Refusal → Host.Outcome State Fault Refusal
  | .next t => .next (f t)
  | .fault r => .fault r
  | .refused r => .refused r

/-- The same state on a block of another latency (R192). -/
def State.withLatency (n : Nat) (s : State) : State :=
  { s with params := { s.params with lat := n } }

/-- The same state of the block with another HOST around it: other invocations and reports, other
tags (R23, R30). -/
def State.withDriver (jobs : List Invocation) (active : Option Invocation) (reports : List Report)
    (tag : SmallerTag) (tintin snowy chalk : Text) (s : State) : State :=
  { s with
    jobs := jobs
    active := active
    reports := reports
    params := { s.params with
      smallestTag := tag, spellTintin := tintin, spellSnowy := snowy, spellChalk := chalk } }

/-- The TXE operations of a byte sequence, BLAST on the final one and on no other (R189, R142). -/
def txeFrame : List Byte → List Instr
  | [] => []
  | [b] => [.txe true b]
  | b :: c :: bs => .txe false b :: txeFrame (c :: bs)

/-- A run is about to start on the frame `F`: nothing else is offered, and the block is as a run
begins (R28, R119). -/
def Loaded (s : State) (F : List Pixel) : Prop :=
  s.resetIn = false ∧ s.qntIn = [] ∧ s.pckIn = [] ∧ s.txrIn = [] ∧
  s.k = 0 ∧ s.j = 0 ∧ s.ended = false ∧ s.out = [] ∧ s.txt = [] ∧ s.pixin = frameWords F

/-- The steps a frame of `n` pixels takes: one each for PIX, and one each for TXR if there is one. -/
def frameSteps (p : Params) (n : Nat) : Nat := if p.hasTxr then 2 * n else n

/-- The HOST may begin its next invocation: no transaction is offered, no run is in progress. -/
def HostIdle (s : State) : Prop :=
  s.resetIn = false ∧ fetch s = none ∧ s.active = none

/-- The transactions of the frame that have been consumed: as many as OUT has bytes (R41). -/
def State.consumed (s : State) : List PixWord := s.pixin.take s.out.length

/-- OUT holds the packed pixel of each consumed transaction at its index; the position is the length
of OUT while the frame lasts and 0 once LAST has been consumed, which only the last consumed
transaction carries (R22, R41, R47, R119). -/
def OutInv (s : State) : Prop :=
  s.out.length ≤ s.pixin.length ∧
  s.out = Memory.cellsFrom 0 (s.consumed.map wordByte) ∧
  (s.ended = true → s.k = 0 ∧ frameWf s.consumed = true) ∧
  (s.ended = false → s.k = s.out.length ∧ ∀ w ∈ s.consumed, lastOf w = false)

/-- What TXR receives of a transaction (R26). -/
def feedWord (w : PixWord) : TxeWord := txeWord (lastOf w) (wordByte w)

/-- What TXR writes of the transactions `ws`, the first of them at position `j` (R142). -/
def emitAll (p : Params) (j : Nat) : List PixWord → Text
  | [] => []
  | w :: ws => emission p j (lastOf w) (wordByte w) ++ emitAll p (j + 1) ws

/-- TXR has rendered the first `m` bytes of OUT, the others wait on its port in order, and its
position is `m`, or 0 after the frame's last byte; without TXR there is no text (R25, R42, R53). -/
def TextInv (s : State) : Prop :=
  (s.params.hasTxr = true → ∃ m, m ≤ s.out.length ∧
    s.txrIn = (s.consumed.drop m).map feedWord ∧
    s.txt = emitAll s.params 0 (s.consumed.take m) ∧
    s.j = if s.ended = true ∧ m = s.out.length then 0 else m) ∧
  (s.params.hasTxr = false → s.txrIn = [] ∧ s.txt = [] ∧ s.j = 0)

/-- The invariant of a run. -/
def RunInv (s : State) : Prop := OutInv s ∧ TextInv s

end Sys2Proof.Machine
end

