-- ==== Sys2Proof/Certificates/Slice0/Obligations.lean ====
section
/-! DEFINITION. The statements about PQP, one proposition each. A statement whose docstring names a log
entry, or a decision or a derivation of the spec, rests on it and not on a rule the source states. -/

open Sys2Proof Sys2Proof.Machine

/-! ## Encoding -/

/-- Words of every format, written out from the spec's encodings (95_test_vectors.md), decode to the
operations they stand for. The layouts are the spec's decision D6; that a number of 40 bits is read as
an F-PIX word of 34 and one of 16 as an F-TXE word of 9 is the model's choice (log 27). -/
def Obligations.SpecWordsDecode : Prop :=
  decodeTableWord 8 0x80 = some (.qnt 128#8) ∧
  decodeTableWord 32 0xAAFF0055 = some (.pck 0xAA#8 0xFF#8 0x00#8 0x55#8) ∧
  decodeTableWord 40 0x1FF802BD5 = some (.pix4 false 255#8 128#8 43#8 213#8) ∧
  decodeTableWord 40 0x3C8643219 = some (.pix4 true 200#8 100#8 50#8 25#8) ∧
  decodeTableWord 40 0x080818200 = some (.pix3 false 128#8 129#8 130#8) ∧
  decodeTableWord 40 0x22B2A2900 = some (.pix3 true 43#8 42#8 41#8) ∧
  decodeTableWord 16 0x0C0 = some (.txe false 0xC0#8) ∧
  decodeTableWord 16 0x1FF = some (.txe true 0xFF#8)

/-- No field of an encoding is dropped: every operation, with every operand at every value, is what
its word decodes to. The layouts are the spec's decision D6. -/
def Obligations.DecodeOfEncodeIsId : Prop :=
  ∀ i : Instr, decode (encode i) = i

/-- Each word is the word of the operation it decodes to, but for the ignored bits 7:0 of a PIX3
word, which the canonical word has at zero (log 21). The layouts are the spec's decision D6. -/
def Obligations.EncodeOfDecodeIsCanonical : Prop :=
  (∀ w : Byte, encode (decode (.qnt w)) = .qnt w) ∧
  (∀ w : PckWord, encode (decode (.pck w)) = .pck w) ∧
  (∀ w : PixWord, encode (decode (.pix w)) =
    .pix (if w.getLsbD 32 then w else w &&& 0x3FFFFFF00#34)) ∧
  (∀ w : TxeWord, encode (decode (.txr w)) = .txr w)

/-- Every word of every port selects exactly one row of the table by (w & mask) = match, the row of
the operation it decodes to. The masks and matches are the spec's decision D6. -/
def Obligations.WordSelectsExactlyItsRow : Prop :=
  ∀ w : PortWord, opTable.filter (fun row => row.selects w) = [rowOf (decode w)]

/-- A number is read as a word of a format exactly when it fits the format's length, and then with
the same bits (decision D3; log 27). -/
def Obligations.NumbersReadAsWords : Prop :=
  ∀ (p : Port) (n : Nat),
    (n < 2 ^ p.width →
      ∃ w : PortWord, w.port = p ∧ w.bits = n ∧ decodeTableWord p.width n = some (decode w)) ∧
    (2 ^ p.width ≤ n → decodeTableWord p.width n = none)

/-! ## QNT -/

/-- R81: QNT gives the level of the table's row the intensity falls in, in every state, and changes
nothing but its own output (whose code is the next statement's). -/
def Obligations.QntGivesLevel : Prop :=
  ∀ (i : Byte) (s : State), ∃ c : Code,
    exec (.qnt i) s = .next { s with
      qntOut := some
        ⟨if i.toNat ≤ 42 then 0x00#8
         else if i.toNat ≤ 128 then 0x55#8
         else if i.toNat ≤ 212 then 0xAA#8
         else 0xFF#8, c⟩ }

/-- QNT gives the code 0 to 3 of the table's row as well, and the level is the code written four times
(40_quantizer.md sections 1 and 2; the spec derives the table's column of codes). -/
def Obligations.QntGivesCode : Prop :=
  ∀ (i : Byte) (s : State), ∃ c : Code,
    c = (if i.toNat ≤ 42 then 0#2
         else if i.toNat ≤ 128 then 1#2
         else if i.toNat ≤ 212 then 2#2
         else 3#2) ∧
    exec (.qnt i) s = .next { s with qntOut := some ⟨c ++ c ++ c ++ c, c⟩ }

/-- Every intensity gives one of the four levels, the same in every state, and each level is given
by some intensity (40_quantizer.md section 3; the last clause the spec derives). -/
def Obligations.QuantizeIsTotalAndPure : Prop :=
  (∀ (i : Byte) (s s' : State), ∃ (o : QntOut) (t t' : State),
    exec (.qnt i) s = .next t ∧ exec (.qnt i) s' = .next t' ∧
    t.qntOut = some o ∧ t'.qntOut = some o ∧
    (o.lvl = 0#8 ∨ o.lvl = 85#8 ∨ o.lvl = 170#8 ∨ o.lvl = 255#8)) ∧
  (∀ l : Byte, isLevel l = true → ∃ i : Byte, quantize i = l)

/-- The comparators give a thermometer code, the encoder's sum and its bit equations agree on it and
give the rank, the level is the rank written four times, and each 2-bit slice of the level is the
rank. The structure is the spec's decision D4. -/
def Obligations.ComparatorsAndEncoderGiveTheRank : Prop :=
  ∀ i : Byte,
    let (c0, c1, c2) := comparators i
    (c2 = true → c1 = true) ∧ (c1 = true → c0 = true) ∧
    encoderSum c0 c1 c2 = rank i ∧ encoderBits c0 c1 c2 = rank i ∧
    expand (rank i) = quantize i ∧
    (quantize i).toNat = 85 * (rank i).toNat ∧
    (quantize i).extractLsb' 0 2 = rank i ∧ (quantize i).extractLsb' 2 2 = rank i ∧
    (quantize i).extractLsb' 4 2 = rank i ∧ (quantize i).extractLsb' 6 2 = rank i

/-- Quantizing is idempotent and monotone, in the level and in the code (40_quantizer.md section 3,
which derives both from the table). -/
def Obligations.QuantizeIsIdempotentAndMonotone : Prop :=
  (∀ i : Byte, quantize (quantize i) = quantize i) ∧
  (∀ i i' : Byte, i ≤ i' → quantize i ≤ quantize i' ∧ rank i ≤ rank i')

/-- The level is the nearest one for every intensity but 128, where it is 85 although 170 is nearer;
and the code is not the top two bits (40_quantizer.md section 3, which derives this by evaluating
all inputs). -/
def Obligations.QuantizeIsNearestBut128 : Prop :=
  (∀ i l : Byte, i ≠ 128#8 → isLevel l = true →
    ((i.toNat : Int) - (quantize i).toNat).natAbs ≤ ((i.toNat : Int) - l.toNat).natAbs) ∧
  quantize 128#8 = 85#8 ∧
  rank 43#8 ≠ (43#8).extractLsb' 6 2 ∧ rank 128#8 ≠ (128#8).extractLsb' 6 2 ∧
  rank 192#8 ≠ (192#8).extractLsb' 6 2

/-! ## PCK -/

/-- R101: PCK of four levels is the OR of the inputs under their masks, which puts A in bits 7:6, R in
5:4, G in 3:2 and B in 1:0, and no other state is read or written. -/
def Obligations.PckMasksAndOrsLevels : Prop :=
  ∀ (r g b a : Byte) (s : State), Instr.inContract (.pck r g b a) = true →
    ∃ p : Byte,
      exec (.pck r g b a) s = .next { s with pckOut := some p } ∧
      p = (a &&& 0xC0#8) ||| (r &&& 0x30#8) ||| (g &&& 0x0C#8) ||| (b &&& 0x03#8) ∧
      p.extractLsb' 6 2 = a.extractLsb' 6 2 ∧ p.extractLsb' 4 2 = r.extractLsb' 4 2 ∧
      p.extractLsb' 2 2 = g.extractLsb' 2 2 ∧ p.extractLsb' 0 2 = b.extractLsb' 0 2

/-- On all 2^32 words PCK is mask and OR, each lane of the result being the same lane of its own
input. On inputs that are not levels this is the spec's decision D5 (log 3). -/
def Obligations.PckIsTotalLaneByLane : Prop :=
  ∀ (r g b a : Byte) (s : State),
    ∃ p : Byte,
      exec (.pck r g b a) s = .next { s with pckOut := some p } ∧
      p.extractLsb' 6 2 = a.extractLsb' 6 2 ∧ p.extractLsb' 4 2 = r.extractLsb' 4 2 ∧
      p.extractLsb' 2 2 = g.extractLsb' 2 2 ∧ p.extractLsb' 0 2 = b.extractLsb' 0 2

/-- Of four levels the packed byte is their codes in the order A, R, G, B (41_packer.md section 2,
which derives it). -/
def Obligations.PackOfLevelsIsTheirCodes : Prop :=
  ∀ r g b a : Byte, Instr.inContract (.pck r g b a) = true →
    pack r g b a = codeOf a ++ codeOf r ++ codeOf g ++ codeOf b

/-- Every byte is the pack of exactly one quadruple of levels, each 85 times the code in its own
field (41_packer.md section 2, which derives it). -/
def Obligations.PackIsBijectiveOnLevels : Prop :=
  ∀ p : Byte, ∃ r g b a : Byte,
    Instr.inContract (.pck r g b a) = true ∧ pack r g b a = p ∧
    a.toNat = 85 * (p.extractLsb' 6 2).toNat ∧ r.toNat = 85 * (p.extractLsb' 4 2).toNat ∧
    g.toNat = 85 * (p.extractLsb' 2 2).toNat ∧ b.toNat = 85 * (p.extractLsb' 0 2).toNat ∧
    ∀ r' g' b' a' : Byte, Instr.inContract (.pck r' g' b' a') = true → pack r' g' b' a' = p →
      r' = r ∧ g' = g ∧ b' = b ∧ a' = a

/-! ## PIX -/

/-- R115, R117: PIX4, whose operands are the fields of an F-PIX word with AP = 1, quantizes each
channel and packs, writes the byte to OUT[k], offers P and P_LAST, advances k or returns it to 0;
every other byte of OUT reads as before, and beyond the run-end flag and the link to TXR (stated
apart) nothing else changes. -/
def Obligations.Pix4ConvertsOnePixel : Prop :=
  ∀ (last : Bool) (r g b a : Byte) (s : State),
    decode (.pix (pixWord last true r g b a)) = .pix4 last r g b a ∧
    ∃ (v : Byte) (t : State),
      exec (.pix4 last r g b a) s = .next t ∧
      v = (quantize a &&& 0xC0#8) ||| (quantize r &&& 0x30#8) ||| (quantize g &&& 0x0C#8) |||
        (quantize b &&& 0x03#8) ∧
      Memory.read t.out s.k = some v ∧
      (∀ x : Nat, x ≠ s.k → Memory.read t.out x = Memory.read s.out x) ∧
      t.pixOut = some ⟨v, last⟩ ∧
      t.k = (if last then 0 else s.k + 1) ∧
      t = { s with out := t.out, pixOut := t.pixOut, k := t.k, ended := t.ended,
                   txrIn := t.txrIn }

/-- R116: PIX3, whose operands are the fields of an F-PIX word with AP = 0, whatever its ignored bits
7:0, does the same with the alpha operand 0xFF, so the A field of its byte is 0b11. -/
def Obligations.Pix3ConvertsWithFullAlpha : Prop :=
  ∀ (last : Bool) (r g b : Byte) (s : State),
    (∀ x : Byte, decode (.pix (pixWord last false r g b x)) = .pix3 last r g b) ∧
    ∃ (v : Byte) (t : State),
      exec (.pix3 last r g b) s = .next t ∧
      v = (quantize 0xFF#8 &&& 0xC0#8) ||| (quantize r &&& 0x30#8) |||
        (quantize g &&& 0x0C#8) ||| (quantize b &&& 0x03#8) ∧
      v.extractLsb' 6 2 = 0b11#2 ∧
      Memory.read t.out s.k = some v ∧
      (∀ x : Nat, x ≠ s.k → Memory.read t.out x = Memory.read s.out x) ∧
      t.pixOut = some ⟨v, last⟩ ∧
      t.k = (if last then 0 else s.k + 1) ∧
      t = { s with out := t.out, pixOut := t.pixOut, k := t.k, ended := t.ended,
                   txrIn := t.txrIn }

/-- PIX ends the frame exactly on LAST, and on a block with TXR hands P and P_LAST to TXR as BYTE and
BLAST. The flag and the queue are the model's (log 6, log 7). -/
def Obligations.PixEndsTheFrameAndFeedsTxr : Prop :=
  ∀ (last : Bool) (r g b a : Byte) (s : State) (i : Instr),
    i = .pix4 last r g b a ∨ i = .pix3 last r g b →
    ∃ (v : Byte) (t : State),
      exec i s = .next t ∧ t.pixOut = some ⟨v, last⟩ ∧ t.ended = last ∧
      (s.params.hasTxr = false → t.txrIn = s.txrIn) ∧
      (s.params.hasTxr = true →
        ∃ w : TxeWord, t.txrIn = s.txrIn ++ [w] ∧ decode (.txr w) = .txe last v)

/-- Two PIX3 words that differ only in bits 7:0 are the same operation, and a PIX4 word's bits 7:0
are its alpha (30_encoding.md section 5; the layout is the spec's decision D6). -/
def Obligations.Pix3IgnoresItsLowByte : Prop :=
  ∀ w w' : PixWord,
    (w.getLsbD 32 = false → w >>> 8 = w' >>> 8 → decode (.pix w) = decode (.pix w')) ∧
    (w.getLsbD 32 = true →
      ∃ last r g b, decode (.pix w) = .pix4 last r g b (w.extractLsb' 0 8))

/-- The alpha of a PIX4 is quantized and packed like a colour, never dropped or forced opaque: bits 7:6
of its byte are the code of its alpha, whatever that is, as the other lanes are the codes of the
colours (42_pixel_pipeline.md section 2; that a lane holds the code of its channel the spec derives,
41_packer.md section 2, 42_pixel_pipeline.md section 4). -/
def Obligations.AlphaIsKept : Prop :=
  ∀ (last : Bool) (r g b a : Byte) (s : State), ∃ (v : Byte) (t : State),
    exec (.pix4 last r g b a) s = .next t ∧ t.pixOut = some ⟨v, last⟩ ∧
    v.extractLsb' 6 2 = rank a ∧ v.extractLsb' 4 2 = rank r ∧
    v.extractLsb' 2 2 = rank g ∧ v.extractLsb' 0 2 = rank b

/-- The byte of a pixel is 64 CODE(a) + 16 CODE(r) + 4 CODE(g) + CODE(b), and of levels it is their
pack (42_pixel_pipeline.md section 4, which derives it). -/
def Obligations.PixelHasItsClosedForm : Prop :=
  ∀ r g b a : Byte,
    (pixel r g b a).toNat =
      64 * (rank a).toNat + 16 * (rank r).toNat + 4 * (rank g).toNat + (rank b).toNat ∧
    (Instr.inContract (.pck r g b a) = true → pixel r g b a = pack r g b a)

/-- PIX4 can produce every byte; PIX3 produces exactly 0xC0 to 0xFF (42_pixel_pipeline.md section 4,
which derives it). -/
def Obligations.PixRangesOfBytes : Prop :=
  (∀ v : Byte, ∃ r g b a : Byte, px (.rgba r g b a) = v) ∧
  (∀ v : Byte, (∃ r g b : Byte, px (.rgb r g b) = v) ↔ 0xC0 ≤ v.toNat)

/-! ## OUT, PIXIN and the run -/

/-- QNT, PCK and TXE leave every byte of OUT as it was, and k and the frame; QNT and PCK leave TXT,
j and TXR's port too; QNT leaves PCK's output and PCK leaves QNT's. -/
def Obligations.OtherUnitsLeaveOutAlone : Prop :=
  ∀ (i : Instr) (s t : State), exec i s = .next t →
    ((∃ v, i = .qnt v) ∨ (∃ r g b a, i = .pck r g b a) ∨ (∃ l b, i = .txe l b)) →
    (∀ x : Nat, Memory.read t.out x = Memory.read s.out x) ∧
    t.k = s.k ∧ t.ended = s.ended ∧ t.pixin = s.pixin ∧ t.pixOut = s.pixOut ∧
    ((∀ l b, i ≠ .txe l b) → t.txt = s.txt ∧ t.j = s.j ∧ t.txrIn = s.txrIn ∧ t.txrOut = s.txrOut) ∧
    ((∀ v, i ≠ .qnt v) → t.qntOut = s.qntOut) ∧
    ((∀ r g b a, i ≠ .pck r g b a) → t.pckOut = s.pckOut)

/-- Every step keeps OUT in its canonical form, in every state. The form is the model's (log 9). -/
def Obligations.StepKeepsOutCanonical : Prop :=
  ∀ s t : State, step s = .next t → Memory.wf s.out = true → Memory.wf t.out = true

/-- Every step keeps the invariant of a run: OUT[i] is the packed pixel of PIXIN[i] for every
consumed i, k is the length of OUT while the frame lasts, LAST stands only on the final one, and TXT
is what TXR writes of the bytes it has been through, the others waiting in order. -/
def Obligations.StepKeepsTheRunInvariant : Prop :=
  ∀ s t : State, RunInv s → step s = .next t → RunInv t

/-- The invariant of a run, and the canonical form, hold at reset. -/
def Obligations.ResetMeetsTheRunInvariant : Prop :=
  RunInv State.reset ∧ Memory.wf State.reset.out = true

/-- In every state that meets the invariant, OUT[i] is the byte of the pixel at PIXIN[i] for every
index of OUT, and no index beyond its length has a byte. -/
def Obligations.OutIsTheImageOfPixin : Prop :=
  ∀ s : State, RunInv s → ∀ x : Nat,
    Memory.read s.out x =
      if x < s.out.length then (s.pixin[x]?).map (fun w => px (pixelOf w)) else none

/-- In every state that meets the invariant, once the frame has ended and TXR has caught up, TXT is
render of OUT and TXR is back at position 0. -/
def Obligations.TextOfAnEndedRunIsRenderOfOut : Prop :=
  ∀ s : State, RunInv s → s.params.hasTxr = true → s.ended = true → s.txrIn = [] →
    render s.params (Memory.bytes s.out) = some s.txt ∧ s.j = 0

/-- From the start of a run on a frame of N pixels, of 3-tuples, 4-tuples or both, the machine takes
N steps (2N with TXR) to a state with OUT = convert(frame) and, with TXR, TXT = render(OUT); k and j
are back at 0, the frame has ended, and PIXIN and the HOST's fields are as they were. The number of
steps counts the model's own interleaving (log 6); framing is the spec's decision D9. -/
def Obligations.FrameRunConvertsTheFrame : Prop :=
  ∀ (s : State) (F : List Pixel), F ≠ [] → Loaded s F →
    ∃ t : State, stepN (frameSteps s.params F.length) s = .next t ∧
      t.out = Memory.cellsFrom 0 (convert F) ∧ Memory.bytes t.out = F.map px ∧
      t.k = 0 ∧ t.j = 0 ∧ t.ended = true ∧ t.txrIn = [] ∧ t.pixin = s.pixin ∧
      (s.params.hasTxr = true → render s.params (convert F) = some t.txt) ∧
      (s.params.hasTxr = false → t.txt = []) ∧
      t.params = s.params ∧ t.jobs = s.jobs ∧ t.active = s.active ∧ t.reports = s.reports ∧
      t.resetIn = false ∧ t.qntIn = [] ∧ t.pckIn = []

/-! ## TXR -/

/-- TXE on a block with TXR appends the prefix at position 0, the row break where one is due,
the entry, and the separator or the suffix; it offers the same characters on CH, advances j or
returns it to 0, and changes nothing else, OUT least of all (43_text_renderer.md sections 2 and 3; the
character codes are log 10, the phase of the breaks and the separator before them log 18). -/
def Obligations.TxeAppendsOneEntry : Prop :=
  ∀ (blast : Bool) (b : Byte) (s : State), s.params.hasTxr = true →
    ∃ e : Text,
      e = (if s.j = 0 then s.params.txtPrefix else []) ++
          (if s.j % 144 = 0 ∧ (0 < s.j ∨ s.params.breakAtZero = true) then s.params.txtBrk
           else []) ++
          [0x30#8, 0x78#8] ++ hex2 b ++
          (if blast then s.params.txtSuffix else [0x2C#8, 0x20#8]) ∧
      exec (.txe blast b) s = .next { s with
        txt := s.txt ++ e, txrOut := some e, j := if blast then 0 else s.j + 1 }

/-- On a block without TXR the port does not exist and TXE is refused (decision D22, log 2). -/
def Obligations.TxeNeedsTxr : Prop :=
  ∀ (blast : Bool) (b : Byte) (s : State), s.params.hasTxr = false →
    exec (.txe blast b) s = .refused .txrAbsent

/-- An entry is 0, x and the two digits of the byte, the more significant first, each from the list of
lowercase digits. The character codes are the spec's general knowledge (log 10). -/
def Obligations.EntryIsLowercaseHex : Prop :=
  ∀ b : Byte, ∃ h l : Byte,
    entry b = [0x30#8, 0x78#8, h, l] ∧ hex2 b = [h, l] ∧
    [0x30#8, 0x31#8, 0x32#8, 0x33#8, 0x34#8, 0x35#8, 0x36#8, 0x37#8, 0x38#8, 0x39#8, 0x61#8,
      0x62#8, 0x63#8, 0x64#8, 0x65#8, 0x66#8][b.toNat / 16]? = some h ∧
    [0x30#8, 0x31#8, 0x32#8, 0x33#8, 0x34#8, 0x35#8, 0x36#8, 0x37#8, 0x38#8, 0x39#8, 0x61#8,
      0x62#8, 0x63#8, 0x64#8, 0x65#8, 0x66#8][b.toNat % 16]? = some l

/-- The TXE operations of a byte sequence of any bytes, from position 0 with BLAST on the final one,
append render of the sequence to TXT and end at position 0, with OUT as it was (43_text_renderer.md
section 3, which derives it by induction). -/
def Obligations.TxeFrameWritesRender : Prop :=
  ∀ (s : State) (bs : List Byte), bs ≠ [] → s.params.hasTxr = true → s.j = 0 →
    ∃ (u : Text) (t : State),
      render s.params bs = some u ∧ execAll (txeFrame bs) s = .next t ∧
      t = { s with txt := s.txt ++ u, txrOut := t.txrOut, j := 0 }

/-- The text parses back to the bytes: parse(render(bs)) = bs for every sequence of length at least 1
and all strings that meet R140's constraints (43_text_renderer.md section 4, which derives it). What parse makes of a text in which two lowercase
digits do not follow 0x is the model's choice (log 28). -/
def Obligations.RenderParsesBack : Prop :=
  ∀ (p : Params) (bs : List Byte) (u : Text),
    p.textOk = true → render p bs = some u → parse u = some bs

/-- The length of the text of N bytes (43_text_renderer.md section 4, which derives it). -/
def Obligations.RenderLength : Prop :=
  ∀ (p : Params) (bs : List Byte), bs ≠ [] →
    ∃ u : Text, render p bs = some u ∧
      u.length = p.txtPrefix.length + 4 * bs.length + 2 * (bs.length - 1) +
        breakCount p bs.length * p.txtBrk.length + p.txtSuffix.length

/-- Whatever the bytes, the text holds only ASCII characters if the three strings do
(43_text_renderer.md section 4; decision D31). -/
def Obligations.RenderIsAscii : Prop :=
  ∀ (p : Params) (bs : List Byte) (u : Text),
    isAscii p.txtPrefix = true → isAscii p.txtSuffix = true → isAscii p.txtBrk = true →
    render p bs = some u → isAscii u = true

/-! ## The HOST -/

/-- An invocation with an argument missing is reported as UsageError, with a usage message and a
non-zero exit; the core is not started and nothing is output (60_exceptions.md section 2). That
UsageError is the class reported also where the tag is unrecognized or smallest, or the image cannot
be parsed, so that two causes hold, is the spec's decision D19 (log 12); that PIXIN is left empty is
the model's inference (log 24). -/
def Obligations.MissingArgumentIsUsageError : Prop :=
  ∀ (s : State) (inv : Invocation) (rest : List Invocation),
    HostIdle s → s.jobs = inv :: rest →
    (inv.platform = none ∨ inv.inputPath = none ∨ inv.outputPath = none) →
    ∃ t : State, step s = .next t ∧ t.reports = s.reports ++ [.failure .usage] ∧
      messageOf (.failure .usage) = some .usageMessage ∧
      exitCode (.failure .usage) = .nonZero ∧
      t.out = [] ∧ t.txt = [] ∧ t.pixin = [] ∧ t.k = 0 ∧ t.active = none

/-- With its arguments present and its image decoded, an invocation whose platform string is none of
the three tags is reported as InvalidPlatformError, with a usage message and a non-zero exit; the
core is not started and nothing is output (60_exceptions.md section 2). That PIXIN is left empty is
the model's inference (log 24). -/
def Obligations.UnknownPlatformIsInvalid : Prop :=
  ∀ (s : State) (inv : Invocation) (rest : List Invocation) (tag inp outp : Text)
    (F : List Pixel),
    HostIdle s → s.jobs = inv :: rest → inv = ⟨some tag, some inp, some outp, some F⟩ →
    tag ≠ s.params.spellTintin → tag ≠ s.params.spellSnowy → tag ≠ s.params.spellChalk →
    ∃ t : State, step s = .next t ∧ t.reports = s.reports ++ [.failure .invalidPlatform] ∧
      messageOf (.failure .invalidPlatform) = some .usageMessage ∧
      exitCode (.failure .invalidPlatform) = .nonZero ∧
      t.out = [] ∧ t.txt = [] ∧ t.pixin = [] ∧ t.k = 0 ∧ t.active = none

/-- With its arguments present and its image decoded, an invocation for the smallest-display platform
is rejected as UnsupportedPlatformError, whatever the image holds; the core is not started and
nothing is output (60_exceptions.md section 2). That an image over the size bound is reported so too
is the spec's decision D19 (log 12), that PIXIN is left empty the model's inference (log 24). -/
def Obligations.SmallestPlatformIsUnsupported : Prop :=
  ∀ (s : State) (inv : Invocation) (rest : List Invocation) (tag inp outp : Text)
    (F : List Pixel),
    HostIdle s → s.jobs = inv :: rest → inv = ⟨some tag, some inp, some outp, some F⟩ →
    platformOf s.params tag = some .smallest →
    ∃ t : State, step s = .next t ∧ t.reports = s.reports ++ [.failure .unsupportedPlatform] ∧
      exitCode (.failure .unsupportedPlatform) = .nonZero ∧
      t.out = [] ∧ t.txt = [] ∧ t.pixin = [] ∧ t.k = 0 ∧ t.active = none

/-- The size rule, exactly; and an invocation for a supported platform whose decoded image is too large
by it is reported as ImageTooLargeError, with a non-zero exit, the core not started and no output,
while one that is not, and has pixels, starts a run on the image (60_exceptions.md section 2;
70_reset_and_hazards.md section 2; the framing of the image is the spec's decision D9). That PIXIN
is left empty on the error is the model's inference (log 24). An image of no pixels is
NoPixelsNoMeaning's. -/
def Obligations.SizeBoundIsExact : Prop :=
  (∀ (n : Nat) (plat : Platform), tooLarge n plat = true ↔
    (24192 < n ∧ (plat = .smallest ∨ plat = .mid)) ∨ (32400 < n ∧ plat = .large)) ∧
  (∀ (s : State) (inv : Invocation) (rest : List Invocation) (tag inp outp : Text)
    (F : List Pixel) (plat : Platform),
    HostIdle s → s.jobs = inv :: rest → inv = ⟨some tag, some inp, some outp, some F⟩ →
    platformOf s.params tag = some plat → plat ≠ .smallest → F ≠ [] →
    ∃ t : State, step s = .next t ∧
      (if tooLarge F.length plat = true then
        t.reports = s.reports ++ [.failure .imageTooLarge] ∧
        exitCode (.failure .imageTooLarge) = .nonZero ∧
        t.out = [] ∧ t.txt = [] ∧ t.pixin = [] ∧ t.k = 0 ∧ t.active = none
      else
        t.reports = s.reports ∧ t.active = some inv ∧ t.pixin = frameWords F ∧
        t.out = [] ∧ t.txt = [] ∧ t.k = 0 ∧ t.ended = false))

/-- An image the library cannot parse, asked for with one of the two supported platforms, is reported
as DecodeError, with a non-zero exit (conflict C6); the core is not started and nothing is output
(60_exceptions.md section 2). That PIXIN is left empty is the model's inference (log 24). With the
smallest platform, or a string that is no tag, two causes hold, and which is reported rests on
decision D19: FirstFailingCheckIsReported and FailedRunLeavesNoOutput cover them. -/
def Obligations.UndecodableImageIsDecodeError : Prop :=
  ∀ (s : State) (inv : Invocation) (rest : List Invocation) (tag inp outp : Text)
    (plat : Platform),
    HostIdle s → s.jobs = inv :: rest → inv = ⟨some tag, some inp, some outp, none⟩ →
    platformOf s.params tag = some plat → plat ≠ .smallest →
    ∃ t : State, step s = .next t ∧ t.reports = s.reports ++ [.failure .decode] ∧
      exitCode (.failure .decode) = .nonZero ∧
      t.out = [] ∧ t.txt = [] ∧ t.pixin = [] ∧ t.k = 0 ∧ t.active = none

/-- The checks in order, the first that applies reported: UsageError, DecodeError,
InvalidPlatformError, UnsupportedPlatformError, ImageTooLargeError; with none, the decoded pixels.
The order is the spec's decision D19 (log 12). -/
def Obligations.FirstFailingCheckIsReported : Prop :=
  ∀ (p : Params) (tag inp outp : Text) (F : List Pixel),
    (∀ inv : Invocation,
      (inv.platform = none ∨ inv.inputPath = none ∨ inv.outputPath = none) →
      checkInvocation p inv = .error .usage) ∧
    checkInvocation p ⟨some tag, some inp, some outp, none⟩ = .error .decode ∧
    (platformOf p tag = none →
      checkInvocation p ⟨some tag, some inp, some outp, some F⟩ = .error .invalidPlatform) ∧
    (platformOf p tag = some .smallest →
      checkInvocation p ⟨some tag, some inp, some outp, some F⟩ = .error .unsupportedPlatform) ∧
    (∀ plat : Platform, platformOf p tag = some plat → plat ≠ .smallest →
      checkInvocation p ⟨some tag, some inp, some outp, some F⟩ =
        if tooLarge F.length plat then .error .imageTooLarge else .ok F)

/-- Whatever error class applies, the failed run leaves nothing: OUT and TXT empty, the core not
started, a message issued, a non-zero exit, and the next invocations and the parameters untouched
(60_exceptions.md section 2; decisions D32, D33, log 16). Which class is reported where two causes
hold is the spec's decision D19 (log 12); that PIXIN is left empty is the model's inference
(log 24). -/
def Obligations.FailedRunLeavesNoOutput : Prop :=
  ∀ (s : State) (inv : Invocation) (rest : List Invocation) (cls : ErrorClass),
    HostIdle s → s.jobs = inv :: rest → checkInvocation s.params inv = .error cls →
    ∃ t : State, step s = .next t ∧ t.reports = s.reports ++ [.failure cls] ∧
      messageOf (.failure cls) ≠ none ∧ exitCode (.failure cls) = .nonZero ∧
      t.out = [] ∧ t.txt = [] ∧ t.pixin = [] ∧ t.k = 0 ∧ t.j = 0 ∧ t.ended = false ∧
      t.active = none ∧ t.jobs = rest ∧ t.params = s.params

/-- When no check fails the HOST's run goes from the invocation to its report: the raw file holds
convert of the decoded pixels, N bytes, the text file render of it if the block has TXR, the exit
code is 0; from any idle state, whatever runs went before (60_exceptions.md section 2;
70_reset_and_hazards.md sections 1 and 2; the number of steps is the model's, log 6, log 23). -/
def Obligations.HostRunDeliversTheFiles : Prop :=
  ∀ (s : State) (inv : Invocation) (rest : List Invocation) (tag inp outp : Text)
    (F : List Pixel),
    HostIdle s → s.qntIn = [] → s.pckIn = [] → s.jobs = inv :: rest →
    inv = ⟨some tag, some inp, some outp, some F⟩ → F ≠ [] →
    checkInvocation s.params inv = .ok F →
    ∃ (t : State) (raw : List Byte) (text : Option Text),
      stepN (1 + frameSteps s.params F.length + 1) s = .next t ∧
      t.reports = s.reports ++ [.success outp raw text] ∧
      raw = convert F ∧ raw.length = F.length ∧
      (s.params.hasTxr = true → text = render s.params raw ∧ text ≠ none) ∧
      (s.params.hasTxr = false → text = none) ∧
      exitCode (.success outp raw text) = .zero ∧
      t.active = none ∧ t.jobs = rest ∧ t.params = s.params

/-- An image of no pixels that passes the checks is refused, and has no text (decisions D10, D30,
log 13). -/
def Obligations.NoPixelsNoMeaning : Prop :=
  (∀ p : Params, render p [] = none) ∧
  (∀ (s : State) (inv : Invocation) (rest : List Invocation),
    HostIdle s → s.jobs = inv :: rest → checkInvocation s.params inv = .ok [] →
    step s = .refused .emptyFrame)

/-- The three tags: chalk is the large one, SMALLEST_TAG the smallest, the other small display the
mid one, given that the spellings differ (60_exceptions.md section 2, decision D21). -/
def Obligations.TagsNameThePlatforms : Prop :=
  ∀ p : Params, p.spellTintin ≠ p.spellSnowy → p.spellTintin ≠ p.spellChalk →
    p.spellSnowy ≠ p.spellChalk →
    platformOf p p.spellChalk = some .large ∧
    (p.smallestTag = .tintin →
      platformOf p p.spellTintin = some .smallest ∧ platformOf p p.spellSnowy = some .mid) ∧
    (p.smallestTag = .snowy →
      platformOf p p.spellSnowy = some .smallest ∧ platformOf p p.spellTintin = some .mid)

/-! ## The whole machine -/

/-- A step runs the operation its port's word decodes to: QNT, PCK and TXR on the state whose port has
given the word up, PIX on the state as it is, whose PIXIN[k] it reads. The order of the ports is the
model's (log 5). -/
def Obligations.StepRunsTheDecodedOperation : Prop :=
  ∀ s : State, s.resetIn = false →
    (∀ w rest, s.qntIn = w :: rest →
      step s = exec (decode (.qnt w)) { s with qntIn := rest }) ∧
    (∀ w rest, s.qntIn = [] → s.pckIn = w :: rest →
      step s = exec (decode (.pck w)) { s with pckIn := rest }) ∧
    (∀ w rest, s.qntIn = [] → s.pckIn = [] → s.txrIn = w :: rest →
      step s = exec (decode (.txr w)) { s with txrIn := rest }) ∧
    (∀ w, s.qntIn = [] → s.pckIn = [] → s.txrIn = [] → s.ended = false →
      s.pixin[s.k]? = some w → step s = exec (decode (.pix w)) s)

/-- With nothing offered no step is enabled, when no run is in progress and no invocation is pending,
and also when a run is in progress whose frame has neither ended nor a transaction at the position
(log 8); so it is at reset, where the block waits for its first transaction (that nothing is offered
or pending at reset is the model's choice, log 5, log 20). -/
def Obligations.NothingOfferedNoStep : Prop :=
  step State.reset = .fault .noEnabledStep ∧
  (∀ s : State, s.resetIn = false → s.qntIn = [] → s.pckIn = [] → s.txrIn = [] →
    (s.ended = true ∨ s.pixin[s.k]? = none) →
    (s.active = none ∧ s.jobs = []) ∨ (s.active ≠ none ∧ s.ended = false) →
    step s = .fault .noEnabledStep)

/-- The word the host presents is the next one run, on a state with the positions and the sequences
OUT and TXT as they were (log 20). -/
def Obligations.PresentedWordRunsNext : Prop :=
  ∀ (s : State) (nbits n : Nat) (i : Instr), decodeTableWord nbits n = some i →
    ∃ s' : State, step (s.withFetchWord nbits n) = exec i s' ∧
      s'.k = s.k ∧ s'.j = s.j ∧ s'.out = s.out ∧ s'.txt = s.txt

/-- What reset leaves (10_state.md section 7, the spec's decision D13). -/
def Obligations.ResetValues : Prop :=
  State.reset.k = 0 ∧ State.reset.j = 0 ∧ State.reset.out = [] ∧ State.reset.txt = [] ∧
  State.reset.txrIn = [] ∧ State.reset.qntOut = none ∧ State.reset.pckOut = none ∧
  State.reset.pixOut = none ∧ State.reset.txrOut = none

/-- The reset input, at any moment, in a frame too, takes one step to the state a run starts in, with
partial OUT and TXT discarded, and changes nothing the HOST holds (70_reset_and_hazards.md section
1, the spec's decision D13; that PIXIN and the words at QNT and PCK stand is log 11, that every word
at TXR is discarded log 30). -/
def Obligations.ResetInputDiscardsTheFrame : Prop :=
  ∀ s : State, s.resetIn = true →
    step s = .next { State.reset with
      params := s.params, qntIn := s.qntIn, pckIn := s.pckIn, pixin := s.pixin, jobs := s.jobs,
      active := s.active, reports := s.reports }

/-- The core raises nothing: every operation answers a next state in every state, TXE where the block
has TXR (60_exceptions.md section 1; on the words PCK's contract leaves out, decision D5). -/
def Obligations.CoreAlwaysCompletes : Prop :=
  ∀ (i : Instr) (s : State),
    (s.params.hasTxr = true ∨ ∀ l b, i ≠ .txe l b) → ∃ t : State, exec i s = .next t

/-- No step writes a parameter (10_state.md section 3). -/
def Obligations.StepKeepsTheParameters : Prop :=
  ∀ s t : State, step s = .next t → t.params = s.params

/-- PIXIN is read only: no operation writes it, whatever the HOST has pending, nor does the reset input
(log 11). Only the HOST's move does, which is made when no transaction is offered: it withdraws the
frame of an ended run (log 23), or begins an invocation, presenting its frame or, on an error, none
(log 24; 20_memory.md section 1). -/
def Obligations.OnlyTheHostWritesPixin : Prop :=
  ∀ s t : State, step s = .next t →
    (s.resetIn = true ∨ fetch s ≠ none → t.pixin = s.pixin) ∧
    (s.resetIn = false → fetch s = none →
      (s.active ≠ none ∧ s.ended = true ∧ t.pixin = [] ∧ t.active = none) ∨
      (∃ inv rest, s.active = none ∧ s.jobs = inv :: rest ∧ t.jobs = rest ∧
        ((∃ cls, checkInvocation s.params inv = .error cls ∧ t.pixin = []) ∨
         (∃ F, F ≠ [] ∧ checkInvocation s.params inv = .ok F ∧ t.pixin = frameWords F ∧
           t.active = some inv))))

/-- Nothing reads the latency: a step of the machine with another LAT is the same step
(70_reset_and_hazards.md section 4, log 22). -/
def Obligations.LatencyIsUnobservable : Prop :=
  ∀ (s : State) (n : Nat), step (s.withLatency n) = mapNext (State.withLatency n) (step s)

/-- The core does not read what the HOST holds, PLATFORM among it: an operation on a state with other
invocations and reports, and another platform, has the same effect (10_state.md section 3). -/
def Obligations.CoreIgnoresTheHost : Prop :=
  ∀ (i : Instr) (s : State) (jobs : List Invocation) (active : Option Invocation)
    (reports : List Report) (tag : SmallerTag) (u v w : Text),
    exec i (s.withDriver jobs active reports tag u v w) =
      mapNext (State.withDriver jobs active reports tag u v w) (exec i s)

/-- Once the HOST takes the outputs of a run that has ended, the report holds OUT and, with TXR, TXT,
and nothing of the run is left: the block is as a run starts, no frame is presented, no step of the
core is enabled, and a reset then leaves it so (70_reset_and_hazards.md sections 1 and 2; that OUT,
TXT and PIXIN are empty already when they are taken, and not first at the next run, is log 23). -/
def Obligations.TakenRunLeavesNothing : Prop :=
  ∀ (s : State) (inv : Invocation) (outp : Text), s.resetIn = false → fetch s = none →
    s.active = some inv → inv.outputPath = some outp → s.ended = true →
    ∃ t u : State, step s = .next t ∧
      t = { State.reset with
        params := s.params
        jobs := s.jobs
        reports := s.reports ++
          [.success outp (Memory.bytes s.out) (if s.params.hasTxr then some s.txt else none)] } ∧
      fetch t = none ∧ step { t with resetIn := true } = .next u ∧ u = t
end

