-- ==== Sys2Proof/Laws/Encoding.lean ====
section
/-! SUPPORT. The fields of an encoded word, as a number and one by one (spec 30_encoding.md R62 to
R64). -/

namespace Sys2Proof

theorem pixWord_toNat (last ap : Bool) (r g b a : Byte) :
    (pixWord last ap r g b a).toNat =
      last.toNat * 2 ^ 33 + ap.toNat * 2 ^ 32 + r.toNat * 2 ^ 24 + g.toNat * 2 ^ 16 +
        b.toNat * 2 ^ 8 + a.toNat := by
  simp only [pixWord, BitVec.toNat_append, BitVec.toNat_ofBool]
  rw [← Nat.shiftLeft_add_eq_or_of_lt a.isLt, ← Nat.shiftLeft_add_eq_or_of_lt b.isLt,
    ← Nat.shiftLeft_add_eq_or_of_lt g.isLt, ← Nat.shiftLeft_add_eq_or_of_lt r.isLt,
    ← Nat.shiftLeft_add_eq_or_of_lt (by cases ap <;> decide)]
  simp only [Nat.shiftLeft_eq]
  omega

/-- A bit of a word, read from its number. -/
theorem getLsbD_eq_div {n : Nat} (w : BitVec n) (i : Nat) :
    w.getLsbD i = decide (w.toNat / 2 ^ i % 2 = 1) := by
  rw [← BitVec.testBit_toNat, Nat.testBit_eq_decide_div_mod_eq]

/-- A byte field of a word, read from its number. -/
theorem extract_eq_of_div {n i : Nat} (w : BitVec n) (v : Byte)
    (h : w.toNat / 2 ^ i % 256 = v.toNat) : w.extractLsb' i 8 = v := by
  apply BitVec.eq_of_toNat_eq
  rw [BitVec.extractLsb'_toNat, Nat.shiftRight_eq_div_pow]
  exact h

section
variable (last ap : Bool) (r g b a : Byte)

@[simp] theorem lastOf_pixWord : lastOf (pixWord last ap r g b a) = last := by
  have := r.isLt; have := g.isLt; have := b.isLt; have := a.isLt
  rw [lastOf, getLsbD_eq_div, pixWord_toNat]
  cases last <;> cases ap <;> simp only [Bool.toNat_true, Bool.toNat_false] <;> simp <;> omega

@[simp] theorem alphaPresent_pixWord : alphaPresent (pixWord last ap r g b a) = ap := by
  have := r.isLt; have := g.isLt; have := b.isLt; have := a.isLt
  rw [alphaPresent, getLsbD_eq_div, pixWord_toNat]
  cases last <;> cases ap <;> simp only [Bool.toNat_true, Bool.toNat_false] <;> simp <;> omega

@[simp] theorem pixWord_r : (pixWord last ap r g b a).extractLsb' 24 8 = r := by
  have := r.isLt; have := g.isLt; have := b.isLt; have := a.isLt
  exact extract_eq_of_div _ _ (by rw [pixWord_toNat]; omega)

@[simp] theorem pixWord_g : (pixWord last ap r g b a).extractLsb' 16 8 = g := by
  have := r.isLt; have := g.isLt; have := b.isLt; have := a.isLt
  exact extract_eq_of_div _ _ (by rw [pixWord_toNat]; omega)

@[simp] theorem pixWord_b : (pixWord last ap r g b a).extractLsb' 8 8 = b := by
  have := r.isLt; have := g.isLt; have := b.isLt; have := a.isLt
  exact extract_eq_of_div _ _ (by rw [pixWord_toNat]; omega)

@[simp] theorem pixWord_a : (pixWord last ap r g b a).extractLsb' 0 8 = a := by
  have := r.isLt; have := g.isLt; have := b.isLt; have := a.isLt
  exact extract_eq_of_div _ _ (by rw [pixWord_toNat]; omega)

theorem pckWord_toNat :
    (r ++ g ++ b ++ a : PckWord).toNat =
      r.toNat * 2 ^ 24 + g.toNat * 2 ^ 16 + b.toNat * 2 ^ 8 + a.toNat := by
  simp only [BitVec.toNat_append]
  rw [← Nat.shiftLeft_add_eq_or_of_lt a.isLt, ← Nat.shiftLeft_add_eq_or_of_lt b.isLt,
    ← Nat.shiftLeft_add_eq_or_of_lt g.isLt]
  simp only [Nat.shiftLeft_eq]
  omega

theorem txeWord_toNat : (txeWord last b).toNat = last.toNat * 2 ^ 8 + b.toNat := by
  simp only [txeWord, BitVec.toNat_append, BitVec.toNat_ofBool]
  rw [← Nat.shiftLeft_add_eq_or_of_lt b.isLt, Nat.shiftLeft_eq]

/-- The fields of an F-TXE word. -/
@[simp] theorem decode_txeWord : decode (.txr (txeWord last b)) = .txe last b := by
  have := b.isLt
  have hl : (txeWord last b).getLsbD 8 = last := by
    rw [getLsbD_eq_div, txeWord_toNat]
    cases last <;> simp only [Bool.toNat_true, Bool.toNat_false] <;> simp <;> omega
  have hb : (txeWord last b).extractLsb' 0 8 = b :=
    extract_eq_of_div _ _ (by rw [txeWord_toNat]; omega)
  rw [decode, hl, hb]

end

end Sys2Proof
end

