-- ==== Sys2Proof/Laws/Memory.lean ====
section
/-! SUPPORT. The laws of a byte sequence space: read after write, the canonical form, and the cells of
a byte sequence. -/

namespace Sys2Proof.Machine

theorem Memory.read_write_same (m : Memory) (x : Nat) (v : Byte) :
    Memory.read (Memory.write m x v) x = some v := by
  induction m with
  | nil => simp [Memory.write, Memory.read]
  | cons c m ih =>
    obtain ⟨a, b⟩ := c
    simp only [Memory.write]
    split
    · simp [Memory.read]
    · split
      · simp [Memory.read]
      · rw [Memory.read, if_neg (by omega), ih]

theorem Memory.read_write_other (m : Memory) {x y : Nat} (v : Byte) (h : y ≠ x) :
    Memory.read (Memory.write m x v) y = Memory.read m y := by
  induction m with
  | nil => simp [Memory.write, Memory.read, h.symm]
  | cons c m ih =>
    obtain ⟨a, b⟩ := c
    simp only [Memory.write]
    split
    · rw [Memory.read, if_neg h.symm]
    · split
      · next _ hx => simp [Memory.read, h.symm, ← hx]
      · simp only [Memory.read, ih]

/-- Every index of a canonical memory's tail lies above its head's. -/
theorem Memory.wf_cons {a : Nat} {b : Byte} {m : Memory} :
    Memory.wf ((a, b) :: m) = true ↔ (∀ c ∈ m.head?, a < c.1) ∧ Memory.wf m = true := by
  cases m with
  | nil => simp [Memory.wf]
  | cons c m => simp [Memory.wf]

theorem Memory.head_write (m : Memory) (x : Nat) (v : Byte) :
    ∀ c ∈ (Memory.write m x v).head?, c.1 = x ∨ ∃ d ∈ m.head?, d.1 = c.1 := by
  cases m with
  | nil => simp [Memory.write]
  | cons c m =>
    obtain ⟨a, b⟩ := c
    simp only [Memory.write]
    split
    · simp
    · split <;> simp

theorem Memory.wf_write (m : Memory) (x : Nat) (v : Byte) (h : Memory.wf m = true) :
    Memory.wf (Memory.write m x v) = true := by
  induction m with
  | nil => simp [Memory.write, Memory.wf]
  | cons c m ih =>
    obtain ⟨a, b⟩ := c
    have hc := Memory.wf_cons.mp h
    simp only [Memory.write]
    split
    · next hx => simp [Memory.wf, hx, h]
    · split
      · next _ hx => subst hx; exact Memory.wf_cons.mpr hc
      · next h₁ h₂ =>
        refine Memory.wf_cons.mpr ⟨fun c hc' => ?_, ih hc.2⟩
        obtain hx | ⟨d, hd, hdc⟩ := Memory.head_write m x v c hc'
        · omega
        · have := hc.1 d hd; omega

/-- A write at the end of the cells of a byte sequence extends the sequence (R125). -/
theorem Memory.write_cellsFrom_end (a : Nat) (bs : List Byte) (v : Byte) :
    Memory.write (Memory.cellsFrom a bs) (a + bs.length) v = Memory.cellsFrom a (bs ++ [v]) := by
  induction bs generalizing a with
  | nil => rfl
  | cons b bs ih =>
    have := ih (a + 1)
    simp only [Memory.cellsFrom, Memory.write, List.length_cons, List.cons_append]
    rw [if_neg (by omega), if_neg (by omega), ← this]
    congr 2
    omega

@[simp] theorem Memory.length_cellsFrom (a : Nat) (bs : List Byte) :
    (Memory.cellsFrom a bs).length = bs.length := by
  induction bs generalizing a with
  | nil => rfl
  | cons b bs ih => simp [Memory.cellsFrom, ih]

@[simp] theorem Memory.bytes_cellsFrom (a : Nat) (bs : List Byte) :
    Memory.bytes (Memory.cellsFrom a bs) = bs := by
  induction bs generalizing a with
  | nil => rfl
  | cons b bs ih => simpa [Memory.cellsFrom, Memory.bytes] using ih (a + 1)

/-- Reading the cells of a byte sequence. -/
theorem Memory.read_cellsFrom (a : Nat) (bs : List Byte) (x : Nat) :
    Memory.read (Memory.cellsFrom a bs) x = if a ≤ x then bs[x - a]? else none := by
  induction bs generalizing a with
  | nil => simp [Memory.cellsFrom, Memory.read]
  | cons b bs ih =>
    simp only [Memory.cellsFrom, Memory.read, ih]
    by_cases h : a = x
    · subst h; simp
    · rw [if_neg h]
      by_cases hx : a ≤ x
      · rw [if_pos (by omega), if_pos hx, show x - a = (x - (a + 1)) + 1 by omega]; simp
      · rw [if_neg (by omega), if_neg hx]

theorem Memory.wf_cellsFrom (a : Nat) (bs : List Byte) :
    Memory.wf (Memory.cellsFrom a bs) = true := by
  induction bs generalizing a with
  | nil => rfl
  | cons b bs ih =>
    refine Memory.wf_cons.mpr ⟨?_, ih (a + 1)⟩
    cases bs <;> simp [Memory.cellsFrom]

theorem reset_out_wf : Memory.wf State.reset.out = true := rfl

end Sys2Proof.Machine
end

