-- ==== Sys2Proof/Laws/PerInstr.lean ====
section
/-! SUPPORT. Facts about every operation as syntax, one lemma a constructor. -/

namespace Sys2Proof.Laws

/-- The encoded word of an operation arrives on the port of its row of the table and selects that
row: (w & mask) = match (R68). -/
def RowSelected.Statement (i : Instr) : Prop := (rowOf i).selects (encode i) = true

/-- The AP bit of a word put together from its fields (R62). -/
theorem pixWord_mask (last ap : Bool) (r g b a : Byte) :
    (pixWord last ap r g b a).toNat &&& 0x100000000 = if ap then 0x100000000 else 0 := by
  have hbit : (pixWord last ap r g b a).getLsbD 32 = ap := by
    exact alphaPresent_pixWord last ap r g b a
  have := Nat.and_two_pow (pixWord last ap r g b a).toNat 32
  rw [BitVec.testBit_toNat, hbit] at this
  cases ap <;> simpa using this

theorem RowSelected.qnt (i : Byte) : RowSelected.Statement (.qnt i) := by
  simp [RowSelected.Statement, OpRow.selects, rowOf, encode, PortWord.port]

theorem RowSelected.pck (r g b a : Byte) : RowSelected.Statement (.pck r g b a) := by
  simp [RowSelected.Statement, OpRow.selects, rowOf, encode, PortWord.port]

theorem RowSelected.pix4 (last : Bool) (r g b a : Byte) :
    RowSelected.Statement (.pix4 last r g b a) := by
  simp [RowSelected.Statement, OpRow.selects, rowOf, encode, PortWord.port, PortWord.bits,
    pixWord_mask]

theorem RowSelected.pix3 (last : Bool) (r g b : Byte) :
    RowSelected.Statement (.pix3 last r g b) := by
  simp [RowSelected.Statement, OpRow.selects, rowOf, encode, PortWord.port, PortWord.bits,
    pixWord_mask]

theorem RowSelected.txe (blast : Bool) (byte : Byte) : RowSelected.Statement (.txe blast byte) := by
  simp [RowSelected.Statement, OpRow.selects, rowOf, encode, PortWord.port]

end Sys2Proof.Laws
end

