-- ==== Sys2Proof/Laws/State.lean ====
section
/-! SUPPORT. One lemma per field of State per named update, so that no later proof unfolds an update. -/

namespace Sys2Proof.Machine

variable (s : State)

@[simp] theorem State.memWriteOut_params (v : Byte) :
    (s.memWriteOut v).params = s.params := rfl
@[simp] theorem State.memWriteOut_resetIn (v : Byte) :
    (s.memWriteOut v).resetIn = s.resetIn := rfl
@[simp] theorem State.memWriteOut_qntIn (v : Byte) :
    (s.memWriteOut v).qntIn = s.qntIn := rfl
@[simp] theorem State.memWriteOut_pckIn (v : Byte) :
    (s.memWriteOut v).pckIn = s.pckIn := rfl
@[simp] theorem State.memWriteOut_pixin (v : Byte) :
    (s.memWriteOut v).pixin = s.pixin := rfl
@[simp] theorem State.memWriteOut_txrIn (v : Byte) :
    (s.memWriteOut v).txrIn = s.txrIn := rfl
@[simp] theorem State.memWriteOut_k (v : Byte) :
    (s.memWriteOut v).k = s.k := rfl
@[simp] theorem State.memWriteOut_j (v : Byte) :
    (s.memWriteOut v).j = s.j := rfl
@[simp] theorem State.memWriteOut_ended (v : Byte) :
    (s.memWriteOut v).ended = s.ended := rfl
@[simp] theorem State.memWriteOut_out (v : Byte) :
    (s.memWriteOut v).out = Memory.write s.out s.k v := rfl
@[simp] theorem State.memWriteOut_txt (v : Byte) :
    (s.memWriteOut v).txt = s.txt := rfl
@[simp] theorem State.memWriteOut_qntOut (v : Byte) :
    (s.memWriteOut v).qntOut = s.qntOut := rfl
@[simp] theorem State.memWriteOut_pckOut (v : Byte) :
    (s.memWriteOut v).pckOut = s.pckOut := rfl
@[simp] theorem State.memWriteOut_pixOut (v : Byte) :
    (s.memWriteOut v).pixOut = s.pixOut := rfl
@[simp] theorem State.memWriteOut_txrOut (v : Byte) :
    (s.memWriteOut v).txrOut = s.txrOut := rfl
@[simp] theorem State.memWriteOut_jobs (v : Byte) :
    (s.memWriteOut v).jobs = s.jobs := rfl
@[simp] theorem State.memWriteOut_active (v : Byte) :
    (s.memWriteOut v).active = s.active := rfl
@[simp] theorem State.memWriteOut_reports (v : Byte) :
    (s.memWriteOut v).reports = s.reports := rfl

@[simp] theorem State.offerQnt_params (o : QntOut) :
    (s.offerQnt o).params = s.params := rfl
@[simp] theorem State.offerQnt_resetIn (o : QntOut) :
    (s.offerQnt o).resetIn = s.resetIn := rfl
@[simp] theorem State.offerQnt_qntIn (o : QntOut) :
    (s.offerQnt o).qntIn = s.qntIn := rfl
@[simp] theorem State.offerQnt_pckIn (o : QntOut) :
    (s.offerQnt o).pckIn = s.pckIn := rfl
@[simp] theorem State.offerQnt_pixin (o : QntOut) :
    (s.offerQnt o).pixin = s.pixin := rfl
@[simp] theorem State.offerQnt_txrIn (o : QntOut) :
    (s.offerQnt o).txrIn = s.txrIn := rfl
@[simp] theorem State.offerQnt_k (o : QntOut) :
    (s.offerQnt o).k = s.k := rfl
@[simp] theorem State.offerQnt_j (o : QntOut) :
    (s.offerQnt o).j = s.j := rfl
@[simp] theorem State.offerQnt_ended (o : QntOut) :
    (s.offerQnt o).ended = s.ended := rfl
@[simp] theorem State.offerQnt_out (o : QntOut) :
    (s.offerQnt o).out = s.out := rfl
@[simp] theorem State.offerQnt_txt (o : QntOut) :
    (s.offerQnt o).txt = s.txt := rfl
@[simp] theorem State.offerQnt_qntOut (o : QntOut) :
    (s.offerQnt o).qntOut = some o := rfl
@[simp] theorem State.offerQnt_pckOut (o : QntOut) :
    (s.offerQnt o).pckOut = s.pckOut := rfl
@[simp] theorem State.offerQnt_pixOut (o : QntOut) :
    (s.offerQnt o).pixOut = s.pixOut := rfl
@[simp] theorem State.offerQnt_txrOut (o : QntOut) :
    (s.offerQnt o).txrOut = s.txrOut := rfl
@[simp] theorem State.offerQnt_jobs (o : QntOut) :
    (s.offerQnt o).jobs = s.jobs := rfl
@[simp] theorem State.offerQnt_active (o : QntOut) :
    (s.offerQnt o).active = s.active := rfl
@[simp] theorem State.offerQnt_reports (o : QntOut) :
    (s.offerQnt o).reports = s.reports := rfl

@[simp] theorem State.offerPck_params (p : Byte) :
    (s.offerPck p).params = s.params := rfl
@[simp] theorem State.offerPck_resetIn (p : Byte) :
    (s.offerPck p).resetIn = s.resetIn := rfl
@[simp] theorem State.offerPck_qntIn (p : Byte) :
    (s.offerPck p).qntIn = s.qntIn := rfl
@[simp] theorem State.offerPck_pckIn (p : Byte) :
    (s.offerPck p).pckIn = s.pckIn := rfl
@[simp] theorem State.offerPck_pixin (p : Byte) :
    (s.offerPck p).pixin = s.pixin := rfl
@[simp] theorem State.offerPck_txrIn (p : Byte) :
    (s.offerPck p).txrIn = s.txrIn := rfl
@[simp] theorem State.offerPck_k (p : Byte) :
    (s.offerPck p).k = s.k := rfl
@[simp] theorem State.offerPck_j (p : Byte) :
    (s.offerPck p).j = s.j := rfl
@[simp] theorem State.offerPck_ended (p : Byte) :
    (s.offerPck p).ended = s.ended := rfl
@[simp] theorem State.offerPck_out (p : Byte) :
    (s.offerPck p).out = s.out := rfl
@[simp] theorem State.offerPck_txt (p : Byte) :
    (s.offerPck p).txt = s.txt := rfl
@[simp] theorem State.offerPck_qntOut (p : Byte) :
    (s.offerPck p).qntOut = s.qntOut := rfl
@[simp] theorem State.offerPck_pckOut (p : Byte) :
    (s.offerPck p).pckOut = some p := rfl
@[simp] theorem State.offerPck_pixOut (p : Byte) :
    (s.offerPck p).pixOut = s.pixOut := rfl
@[simp] theorem State.offerPck_txrOut (p : Byte) :
    (s.offerPck p).txrOut = s.txrOut := rfl
@[simp] theorem State.offerPck_jobs (p : Byte) :
    (s.offerPck p).jobs = s.jobs := rfl
@[simp] theorem State.offerPck_active (p : Byte) :
    (s.offerPck p).active = s.active := rfl
@[simp] theorem State.offerPck_reports (p : Byte) :
    (s.offerPck p).reports = s.reports := rfl

@[simp] theorem State.offerPix_params (v : Byte) (last : Bool) :
    (s.offerPix v last).params = s.params := rfl
@[simp] theorem State.offerPix_resetIn (v : Byte) (last : Bool) :
    (s.offerPix v last).resetIn = s.resetIn := rfl
@[simp] theorem State.offerPix_qntIn (v : Byte) (last : Bool) :
    (s.offerPix v last).qntIn = s.qntIn := rfl
@[simp] theorem State.offerPix_pckIn (v : Byte) (last : Bool) :
    (s.offerPix v last).pckIn = s.pckIn := rfl
@[simp] theorem State.offerPix_pixin (v : Byte) (last : Bool) :
    (s.offerPix v last).pixin = s.pixin := rfl
@[simp] theorem State.offerPix_txrIn (v : Byte) (last : Bool) :
    (s.offerPix v last).txrIn = if s.params.hasTxr then s.txrIn ++ [txeWord last v] else s.txrIn := rfl
@[simp] theorem State.offerPix_k (v : Byte) (last : Bool) :
    (s.offerPix v last).k = s.k := rfl
@[simp] theorem State.offerPix_j (v : Byte) (last : Bool) :
    (s.offerPix v last).j = s.j := rfl
@[simp] theorem State.offerPix_ended (v : Byte) (last : Bool) :
    (s.offerPix v last).ended = s.ended := rfl
@[simp] theorem State.offerPix_out (v : Byte) (last : Bool) :
    (s.offerPix v last).out = s.out := rfl
@[simp] theorem State.offerPix_txt (v : Byte) (last : Bool) :
    (s.offerPix v last).txt = s.txt := rfl
@[simp] theorem State.offerPix_qntOut (v : Byte) (last : Bool) :
    (s.offerPix v last).qntOut = s.qntOut := rfl
@[simp] theorem State.offerPix_pckOut (v : Byte) (last : Bool) :
    (s.offerPix v last).pckOut = s.pckOut := rfl
@[simp] theorem State.offerPix_pixOut (v : Byte) (last : Bool) :
    (s.offerPix v last).pixOut = some ⟨v, last⟩ := rfl
@[simp] theorem State.offerPix_txrOut (v : Byte) (last : Bool) :
    (s.offerPix v last).txrOut = s.txrOut := rfl
@[simp] theorem State.offerPix_jobs (v : Byte) (last : Bool) :
    (s.offerPix v last).jobs = s.jobs := rfl
@[simp] theorem State.offerPix_active (v : Byte) (last : Bool) :
    (s.offerPix v last).active = s.active := rfl
@[simp] theorem State.offerPix_reports (v : Byte) (last : Bool) :
    (s.offerPix v last).reports = s.reports := rfl

@[simp] theorem State.advanceK_params (last : Bool) :
    (s.advanceK last).params = s.params := rfl
@[simp] theorem State.advanceK_resetIn (last : Bool) :
    (s.advanceK last).resetIn = s.resetIn := rfl
@[simp] theorem State.advanceK_qntIn (last : Bool) :
    (s.advanceK last).qntIn = s.qntIn := rfl
@[simp] theorem State.advanceK_pckIn (last : Bool) :
    (s.advanceK last).pckIn = s.pckIn := rfl
@[simp] theorem State.advanceK_pixin (last : Bool) :
    (s.advanceK last).pixin = s.pixin := rfl
@[simp] theorem State.advanceK_txrIn (last : Bool) :
    (s.advanceK last).txrIn = s.txrIn := rfl
@[simp] theorem State.advanceK_k (last : Bool) :
    (s.advanceK last).k = if last then 0 else s.k + 1 := rfl
@[simp] theorem State.advanceK_j (last : Bool) :
    (s.advanceK last).j = s.j := rfl
@[simp] theorem State.advanceK_ended (last : Bool) :
    (s.advanceK last).ended = last := rfl
@[simp] theorem State.advanceK_out (last : Bool) :
    (s.advanceK last).out = s.out := rfl
@[simp] theorem State.advanceK_txt (last : Bool) :
    (s.advanceK last).txt = s.txt := rfl
@[simp] theorem State.advanceK_qntOut (last : Bool) :
    (s.advanceK last).qntOut = s.qntOut := rfl
@[simp] theorem State.advanceK_pckOut (last : Bool) :
    (s.advanceK last).pckOut = s.pckOut := rfl
@[simp] theorem State.advanceK_pixOut (last : Bool) :
    (s.advanceK last).pixOut = s.pixOut := rfl
@[simp] theorem State.advanceK_txrOut (last : Bool) :
    (s.advanceK last).txrOut = s.txrOut := rfl
@[simp] theorem State.advanceK_jobs (last : Bool) :
    (s.advanceK last).jobs = s.jobs := rfl
@[simp] theorem State.advanceK_active (last : Bool) :
    (s.advanceK last).active = s.active := rfl
@[simp] theorem State.advanceK_reports (last : Bool) :
    (s.advanceK last).reports = s.reports := rfl

@[simp] theorem State.putPixel_params (v : Byte) (last : Bool) :
    (s.putPixel v last).params = s.params := rfl
@[simp] theorem State.putPixel_resetIn (v : Byte) (last : Bool) :
    (s.putPixel v last).resetIn = s.resetIn := rfl
@[simp] theorem State.putPixel_qntIn (v : Byte) (last : Bool) :
    (s.putPixel v last).qntIn = s.qntIn := rfl
@[simp] theorem State.putPixel_pckIn (v : Byte) (last : Bool) :
    (s.putPixel v last).pckIn = s.pckIn := rfl
@[simp] theorem State.putPixel_pixin (v : Byte) (last : Bool) :
    (s.putPixel v last).pixin = s.pixin := rfl
@[simp] theorem State.putPixel_txrIn (v : Byte) (last : Bool) :
    (s.putPixel v last).txrIn = if s.params.hasTxr then s.txrIn ++ [txeWord last v] else s.txrIn := rfl
@[simp] theorem State.putPixel_k (v : Byte) (last : Bool) :
    (s.putPixel v last).k = if last then 0 else s.k + 1 := rfl
@[simp] theorem State.putPixel_j (v : Byte) (last : Bool) :
    (s.putPixel v last).j = s.j := rfl
@[simp] theorem State.putPixel_ended (v : Byte) (last : Bool) :
    (s.putPixel v last).ended = last := rfl
@[simp] theorem State.putPixel_out (v : Byte) (last : Bool) :
    (s.putPixel v last).out = Memory.write s.out s.k v := rfl
@[simp] theorem State.putPixel_txt (v : Byte) (last : Bool) :
    (s.putPixel v last).txt = s.txt := rfl
@[simp] theorem State.putPixel_qntOut (v : Byte) (last : Bool) :
    (s.putPixel v last).qntOut = s.qntOut := rfl
@[simp] theorem State.putPixel_pckOut (v : Byte) (last : Bool) :
    (s.putPixel v last).pckOut = s.pckOut := rfl
@[simp] theorem State.putPixel_pixOut (v : Byte) (last : Bool) :
    (s.putPixel v last).pixOut = some ⟨v, last⟩ := rfl
@[simp] theorem State.putPixel_txrOut (v : Byte) (last : Bool) :
    (s.putPixel v last).txrOut = s.txrOut := rfl
@[simp] theorem State.putPixel_jobs (v : Byte) (last : Bool) :
    (s.putPixel v last).jobs = s.jobs := rfl
@[simp] theorem State.putPixel_active (v : Byte) (last : Bool) :
    (s.putPixel v last).active = s.active := rfl
@[simp] theorem State.putPixel_reports (v : Byte) (last : Bool) :
    (s.putPixel v last).reports = s.reports := rfl

@[simp] theorem State.emit_params (t : Text) :
    (s.emit t).params = s.params := rfl
@[simp] theorem State.emit_resetIn (t : Text) :
    (s.emit t).resetIn = s.resetIn := rfl
@[simp] theorem State.emit_qntIn (t : Text) :
    (s.emit t).qntIn = s.qntIn := rfl
@[simp] theorem State.emit_pckIn (t : Text) :
    (s.emit t).pckIn = s.pckIn := rfl
@[simp] theorem State.emit_pixin (t : Text) :
    (s.emit t).pixin = s.pixin := rfl
@[simp] theorem State.emit_txrIn (t : Text) :
    (s.emit t).txrIn = s.txrIn := rfl
@[simp] theorem State.emit_k (t : Text) :
    (s.emit t).k = s.k := rfl
@[simp] theorem State.emit_j (t : Text) :
    (s.emit t).j = s.j := rfl
@[simp] theorem State.emit_ended (t : Text) :
    (s.emit t).ended = s.ended := rfl
@[simp] theorem State.emit_out (t : Text) :
    (s.emit t).out = s.out := rfl
@[simp] theorem State.emit_txt (t : Text) :
    (s.emit t).txt = s.txt ++ t := rfl
@[simp] theorem State.emit_qntOut (t : Text) :
    (s.emit t).qntOut = s.qntOut := rfl
@[simp] theorem State.emit_pckOut (t : Text) :
    (s.emit t).pckOut = s.pckOut := rfl
@[simp] theorem State.emit_pixOut (t : Text) :
    (s.emit t).pixOut = s.pixOut := rfl
@[simp] theorem State.emit_txrOut (t : Text) :
    (s.emit t).txrOut = some t := rfl
@[simp] theorem State.emit_jobs (t : Text) :
    (s.emit t).jobs = s.jobs := rfl
@[simp] theorem State.emit_active (t : Text) :
    (s.emit t).active = s.active := rfl
@[simp] theorem State.emit_reports (t : Text) :
    (s.emit t).reports = s.reports := rfl

@[simp] theorem State.advanceJ_params (blast : Bool) :
    (s.advanceJ blast).params = s.params := rfl
@[simp] theorem State.advanceJ_resetIn (blast : Bool) :
    (s.advanceJ blast).resetIn = s.resetIn := rfl
@[simp] theorem State.advanceJ_qntIn (blast : Bool) :
    (s.advanceJ blast).qntIn = s.qntIn := rfl
@[simp] theorem State.advanceJ_pckIn (blast : Bool) :
    (s.advanceJ blast).pckIn = s.pckIn := rfl
@[simp] theorem State.advanceJ_pixin (blast : Bool) :
    (s.advanceJ blast).pixin = s.pixin := rfl
@[simp] theorem State.advanceJ_txrIn (blast : Bool) :
    (s.advanceJ blast).txrIn = s.txrIn := rfl
@[simp] theorem State.advanceJ_k (blast : Bool) :
    (s.advanceJ blast).k = s.k := rfl
@[simp] theorem State.advanceJ_j (blast : Bool) :
    (s.advanceJ blast).j = if blast then 0 else s.j + 1 := rfl
@[simp] theorem State.advanceJ_ended (blast : Bool) :
    (s.advanceJ blast).ended = s.ended := rfl
@[simp] theorem State.advanceJ_out (blast : Bool) :
    (s.advanceJ blast).out = s.out := rfl
@[simp] theorem State.advanceJ_txt (blast : Bool) :
    (s.advanceJ blast).txt = s.txt := rfl
@[simp] theorem State.advanceJ_qntOut (blast : Bool) :
    (s.advanceJ blast).qntOut = s.qntOut := rfl
@[simp] theorem State.advanceJ_pckOut (blast : Bool) :
    (s.advanceJ blast).pckOut = s.pckOut := rfl
@[simp] theorem State.advanceJ_pixOut (blast : Bool) :
    (s.advanceJ blast).pixOut = s.pixOut := rfl
@[simp] theorem State.advanceJ_txrOut (blast : Bool) :
    (s.advanceJ blast).txrOut = s.txrOut := rfl
@[simp] theorem State.advanceJ_jobs (blast : Bool) :
    (s.advanceJ blast).jobs = s.jobs := rfl
@[simp] theorem State.advanceJ_active (blast : Bool) :
    (s.advanceJ blast).active = s.active := rfl
@[simp] theorem State.advanceJ_reports (blast : Bool) :
    (s.advanceJ blast).reports = s.reports := rfl

@[simp] theorem State.clearBlock_params :
    (s.clearBlock).params = s.params := rfl
@[simp] theorem State.clearBlock_resetIn :
    (s.clearBlock).resetIn = s.resetIn := rfl
@[simp] theorem State.clearBlock_qntIn :
    (s.clearBlock).qntIn = s.qntIn := rfl
@[simp] theorem State.clearBlock_pckIn :
    (s.clearBlock).pckIn = s.pckIn := rfl
@[simp] theorem State.clearBlock_pixin :
    (s.clearBlock).pixin = s.pixin := rfl
@[simp] theorem State.clearBlock_txrIn :
    (s.clearBlock).txrIn = [] := rfl
@[simp] theorem State.clearBlock_k :
    (s.clearBlock).k = 0 := rfl
@[simp] theorem State.clearBlock_j :
    (s.clearBlock).j = 0 := rfl
@[simp] theorem State.clearBlock_ended :
    (s.clearBlock).ended = false := rfl
@[simp] theorem State.clearBlock_out :
    (s.clearBlock).out = [] := rfl
@[simp] theorem State.clearBlock_txt :
    (s.clearBlock).txt = [] := rfl
@[simp] theorem State.clearBlock_qntOut :
    (s.clearBlock).qntOut = none := rfl
@[simp] theorem State.clearBlock_pckOut :
    (s.clearBlock).pckOut = none := rfl
@[simp] theorem State.clearBlock_pixOut :
    (s.clearBlock).pixOut = none := rfl
@[simp] theorem State.clearBlock_txrOut :
    (s.clearBlock).txrOut = none := rfl
@[simp] theorem State.clearBlock_jobs :
    (s.clearBlock).jobs = s.jobs := rfl
@[simp] theorem State.clearBlock_active :
    (s.clearBlock).active = s.active := rfl
@[simp] theorem State.clearBlock_reports :
    (s.clearBlock).reports = s.reports := rfl

@[simp] theorem State.applyReset_params :
    (s.applyReset).params = s.params := rfl
@[simp] theorem State.applyReset_resetIn :
    (s.applyReset).resetIn = false := rfl
@[simp] theorem State.applyReset_qntIn :
    (s.applyReset).qntIn = s.qntIn := rfl
@[simp] theorem State.applyReset_pckIn :
    (s.applyReset).pckIn = s.pckIn := rfl
@[simp] theorem State.applyReset_pixin :
    (s.applyReset).pixin = s.pixin := rfl
@[simp] theorem State.applyReset_txrIn :
    (s.applyReset).txrIn = [] := rfl
@[simp] theorem State.applyReset_k :
    (s.applyReset).k = 0 := rfl
@[simp] theorem State.applyReset_j :
    (s.applyReset).j = 0 := rfl
@[simp] theorem State.applyReset_ended :
    (s.applyReset).ended = false := rfl
@[simp] theorem State.applyReset_out :
    (s.applyReset).out = [] := rfl
@[simp] theorem State.applyReset_txt :
    (s.applyReset).txt = [] := rfl
@[simp] theorem State.applyReset_qntOut :
    (s.applyReset).qntOut = none := rfl
@[simp] theorem State.applyReset_pckOut :
    (s.applyReset).pckOut = none := rfl
@[simp] theorem State.applyReset_pixOut :
    (s.applyReset).pixOut = none := rfl
@[simp] theorem State.applyReset_txrOut :
    (s.applyReset).txrOut = none := rfl
@[simp] theorem State.applyReset_jobs :
    (s.applyReset).jobs = s.jobs := rfl
@[simp] theorem State.applyReset_active :
    (s.applyReset).active = s.active := rfl
@[simp] theorem State.applyReset_reports :
    (s.applyReset).reports = s.reports := rfl

@[simp] theorem State.startRun_params (inv : Invocation) (frame : List PixWord) :
    (s.startRun inv frame).params = s.params := rfl
@[simp] theorem State.startRun_resetIn (inv : Invocation) (frame : List PixWord) :
    (s.startRun inv frame).resetIn = s.resetIn := rfl
@[simp] theorem State.startRun_qntIn (inv : Invocation) (frame : List PixWord) :
    (s.startRun inv frame).qntIn = s.qntIn := rfl
@[simp] theorem State.startRun_pckIn (inv : Invocation) (frame : List PixWord) :
    (s.startRun inv frame).pckIn = s.pckIn := rfl
@[simp] theorem State.startRun_pixin (inv : Invocation) (frame : List PixWord) :
    (s.startRun inv frame).pixin = frame := rfl
@[simp] theorem State.startRun_txrIn (inv : Invocation) (frame : List PixWord) :
    (s.startRun inv frame).txrIn = [] := rfl
@[simp] theorem State.startRun_k (inv : Invocation) (frame : List PixWord) :
    (s.startRun inv frame).k = 0 := rfl
@[simp] theorem State.startRun_j (inv : Invocation) (frame : List PixWord) :
    (s.startRun inv frame).j = 0 := rfl
@[simp] theorem State.startRun_ended (inv : Invocation) (frame : List PixWord) :
    (s.startRun inv frame).ended = false := rfl
@[simp] theorem State.startRun_out (inv : Invocation) (frame : List PixWord) :
    (s.startRun inv frame).out = [] := rfl
@[simp] theorem State.startRun_txt (inv : Invocation) (frame : List PixWord) :
    (s.startRun inv frame).txt = [] := rfl
@[simp] theorem State.startRun_qntOut (inv : Invocation) (frame : List PixWord) :
    (s.startRun inv frame).qntOut = none := rfl
@[simp] theorem State.startRun_pckOut (inv : Invocation) (frame : List PixWord) :
    (s.startRun inv frame).pckOut = none := rfl
@[simp] theorem State.startRun_pixOut (inv : Invocation) (frame : List PixWord) :
    (s.startRun inv frame).pixOut = none := rfl
@[simp] theorem State.startRun_txrOut (inv : Invocation) (frame : List PixWord) :
    (s.startRun inv frame).txrOut = none := rfl
@[simp] theorem State.startRun_jobs (inv : Invocation) (frame : List PixWord) :
    (s.startRun inv frame).jobs = s.jobs := rfl
@[simp] theorem State.startRun_active (inv : Invocation) (frame : List PixWord) :
    (s.startRun inv frame).active = some inv := rfl
@[simp] theorem State.startRun_reports (inv : Invocation) (frame : List PixWord) :
    (s.startRun inv frame).reports = s.reports := rfl

@[simp] theorem State.endRun_params (r : Report) :
    (s.endRun r).params = s.params := rfl
@[simp] theorem State.endRun_resetIn (r : Report) :
    (s.endRun r).resetIn = s.resetIn := rfl
@[simp] theorem State.endRun_qntIn (r : Report) :
    (s.endRun r).qntIn = s.qntIn := rfl
@[simp] theorem State.endRun_pckIn (r : Report) :
    (s.endRun r).pckIn = s.pckIn := rfl
@[simp] theorem State.endRun_pixin (r : Report) :
    (s.endRun r).pixin = [] := rfl
@[simp] theorem State.endRun_txrIn (r : Report) :
    (s.endRun r).txrIn = [] := rfl
@[simp] theorem State.endRun_k (r : Report) :
    (s.endRun r).k = 0 := rfl
@[simp] theorem State.endRun_j (r : Report) :
    (s.endRun r).j = 0 := rfl
@[simp] theorem State.endRun_ended (r : Report) :
    (s.endRun r).ended = false := rfl
@[simp] theorem State.endRun_out (r : Report) :
    (s.endRun r).out = [] := rfl
@[simp] theorem State.endRun_txt (r : Report) :
    (s.endRun r).txt = [] := rfl
@[simp] theorem State.endRun_qntOut (r : Report) :
    (s.endRun r).qntOut = none := rfl
@[simp] theorem State.endRun_pckOut (r : Report) :
    (s.endRun r).pckOut = none := rfl
@[simp] theorem State.endRun_pixOut (r : Report) :
    (s.endRun r).pixOut = none := rfl
@[simp] theorem State.endRun_txrOut (r : Report) :
    (s.endRun r).txrOut = none := rfl
@[simp] theorem State.endRun_jobs (r : Report) :
    (s.endRun r).jobs = s.jobs := rfl
@[simp] theorem State.endRun_active (r : Report) :
    (s.endRun r).active = none := rfl
@[simp] theorem State.endRun_reports (r : Report) :
    (s.endRun r).reports = s.reports ++ [r] := rfl

@[simp] theorem State.raiseHost_params (cls : ErrorClass) :
    (s.raiseHost cls).params = s.params := rfl
@[simp] theorem State.raiseHost_resetIn (cls : ErrorClass) :
    (s.raiseHost cls).resetIn = s.resetIn := rfl
@[simp] theorem State.raiseHost_qntIn (cls : ErrorClass) :
    (s.raiseHost cls).qntIn = s.qntIn := rfl
@[simp] theorem State.raiseHost_pckIn (cls : ErrorClass) :
    (s.raiseHost cls).pckIn = s.pckIn := rfl
@[simp] theorem State.raiseHost_pixin (cls : ErrorClass) :
    (s.raiseHost cls).pixin = [] := rfl
@[simp] theorem State.raiseHost_txrIn (cls : ErrorClass) :
    (s.raiseHost cls).txrIn = [] := rfl
@[simp] theorem State.raiseHost_k (cls : ErrorClass) :
    (s.raiseHost cls).k = 0 := rfl
@[simp] theorem State.raiseHost_j (cls : ErrorClass) :
    (s.raiseHost cls).j = 0 := rfl
@[simp] theorem State.raiseHost_ended (cls : ErrorClass) :
    (s.raiseHost cls).ended = false := rfl
@[simp] theorem State.raiseHost_out (cls : ErrorClass) :
    (s.raiseHost cls).out = [] := rfl
@[simp] theorem State.raiseHost_txt (cls : ErrorClass) :
    (s.raiseHost cls).txt = [] := rfl
@[simp] theorem State.raiseHost_qntOut (cls : ErrorClass) :
    (s.raiseHost cls).qntOut = none := rfl
@[simp] theorem State.raiseHost_pckOut (cls : ErrorClass) :
    (s.raiseHost cls).pckOut = none := rfl
@[simp] theorem State.raiseHost_pixOut (cls : ErrorClass) :
    (s.raiseHost cls).pixOut = none := rfl
@[simp] theorem State.raiseHost_txrOut (cls : ErrorClass) :
    (s.raiseHost cls).txrOut = none := rfl
@[simp] theorem State.raiseHost_jobs (cls : ErrorClass) :
    (s.raiseHost cls).jobs = s.jobs := rfl
@[simp] theorem State.raiseHost_active (cls : ErrorClass) :
    (s.raiseHost cls).active = none := rfl
@[simp] theorem State.raiseHost_reports (cls : ErrorClass) :
    (s.raiseHost cls).reports = s.reports ++ [.failure cls] := rfl

@[simp] theorem State.collect_params (inv : Invocation) :
    (s.collect inv).params = s.params := rfl
@[simp] theorem State.collect_resetIn (inv : Invocation) :
    (s.collect inv).resetIn = s.resetIn := rfl
@[simp] theorem State.collect_qntIn (inv : Invocation) :
    (s.collect inv).qntIn = s.qntIn := rfl
@[simp] theorem State.collect_pckIn (inv : Invocation) :
    (s.collect inv).pckIn = s.pckIn := rfl
@[simp] theorem State.collect_pixin (inv : Invocation) :
    (s.collect inv).pixin = [] := rfl
@[simp] theorem State.collect_txrIn (inv : Invocation) :
    (s.collect inv).txrIn = [] := rfl
@[simp] theorem State.collect_k (inv : Invocation) :
    (s.collect inv).k = 0 := rfl
@[simp] theorem State.collect_j (inv : Invocation) :
    (s.collect inv).j = 0 := rfl
@[simp] theorem State.collect_ended (inv : Invocation) :
    (s.collect inv).ended = false := rfl
@[simp] theorem State.collect_out (inv : Invocation) :
    (s.collect inv).out = [] := rfl
@[simp] theorem State.collect_txt (inv : Invocation) :
    (s.collect inv).txt = [] := rfl
@[simp] theorem State.collect_qntOut (inv : Invocation) :
    (s.collect inv).qntOut = none := rfl
@[simp] theorem State.collect_pckOut (inv : Invocation) :
    (s.collect inv).pckOut = none := rfl
@[simp] theorem State.collect_pixOut (inv : Invocation) :
    (s.collect inv).pixOut = none := rfl
@[simp] theorem State.collect_txrOut (inv : Invocation) :
    (s.collect inv).txrOut = none := rfl
@[simp] theorem State.collect_jobs (inv : Invocation) :
    (s.collect inv).jobs = s.jobs := rfl
@[simp] theorem State.collect_active (inv : Invocation) :
    (s.collect inv).active = none := rfl
@[simp] theorem State.collect_reports (inv : Invocation) :
    (s.collect inv).reports = s.reports ++ [.success (inv.outputPath.getD []) (Memory.bytes s.out)
      (if s.params.hasTxr then some s.txt else none)] := rfl

end Sys2Proof.Machine
end

