-- ==== Sys2Proof/Laws/Step.lean ====
section
/-! SUPPORT. What each shared operation can do, said once: the operations of the core, the fetch, the
HOST's move, and the step. -/

namespace Sys2Proof.Machine

/-- Every next state of an operation is one of four updates. -/
theorem exec_cases {i : Instr} {s t : State} (h : exec i s = .next t) :
    (∃ v, i = .qnt v ∧ t = s.offerQnt ⟨quantize v, rank v⟩) ∨
    (∃ r g b a, i = .pck r g b a ∧ t = s.offerPck (pack r g b a)) ∨
    (∃ last r g b a, (i = .pix4 last r g b a ∨ (i = .pix3 last r g b ∧ a = aDefault)) ∧
      t = s.putPixel (pixel r g b a) last) ∨
    (∃ blast b, i = .txe blast b ∧ s.params.hasTxr = true ∧
      t = (s.emit (emission s.params s.j blast b)).advanceJ blast) := by
  cases i with
  | qnt v => cases h; exact .inl ⟨v, rfl, rfl⟩
  | pck r g b a => cases h; exact .inr (.inl ⟨r, g, b, a, rfl, rfl⟩)
  | pix4 last r g b a => cases h; exact .inr (.inr (.inl ⟨last, r, g, b, a, .inl rfl, rfl⟩))
  | pix3 last r g b =>
    cases h; exact .inr (.inr (.inl ⟨last, r, g, b, aDefault, .inr ⟨rfl, rfl⟩, rfl⟩))
  | txe blast b =>
    simp only [exec, execTxe] at h
    split at h
    · next ht => cases h; exact .inr (.inr (.inr ⟨blast, b, rfl, ht, rfl⟩))
    · cases h

/-- The operation of an F-PIX word puts the byte of its pixel. -/
theorem exec_decode_pix (w : PixWord) (s : State) :
    exec (decode (.pix w)) s = .next (s.putPixel (wordByte w) (lastOf w)) := by
  simp only [decode, wordByte, pixelOf]
  split <;> rfl

/-- The operation of an F-TXE word of known fields. -/
theorem exec_txe {s : State} (h : s.params.hasTxr = true) (blast : Bool) (b : Byte) :
    exec (.txe blast b) s =
      .next ((s.emit (emission s.params s.j blast b)).advanceJ blast) := by
  simp [exec, execTxe, h]

/-- Where a fetched transaction comes from. -/
theorem fetch_cases {s s' : State} {w : PortWord} (h : fetch s = some (w, s')) :
    (∃ v rest, w = .qnt v ∧ s.qntIn = v :: rest ∧ s' = { s with qntIn := rest }) ∨
    (∃ v rest, w = .pck v ∧ s.qntIn = [] ∧ s.pckIn = v :: rest ∧
      s' = { s with pckIn := rest }) ∨
    (∃ v rest, w = .txr v ∧ s.qntIn = [] ∧ s.pckIn = [] ∧ s.txrIn = v :: rest ∧
      s' = { s with txrIn := rest }) ∨
    (∃ v, w = .pix v ∧ s.qntIn = [] ∧ s.pckIn = [] ∧ s.txrIn = [] ∧ s.ended = false ∧
      s.pixin[s.k]? = some v ∧ s' = s) := by
  unfold fetch at h
  split at h
  · next v rest hq => cases h; exact .inl ⟨v, rest, rfl, hq, rfl⟩
  · next v rest hq hp => cases h; exact .inr (.inl ⟨v, rest, rfl, hq, hp, rfl⟩)
  · next v rest hq hp ht => cases h; exact .inr (.inr (.inl ⟨v, rest, rfl, hq, hp, ht, rfl⟩))
  · next hq hp ht =>
    split at h
    · cases h
    · next he =>
      split at h
      · next v hv =>
        cases h
        exact .inr (.inr (.inr ⟨v, rfl, hq, hp, ht, by simpa using he, hv, rfl⟩))
      · cases h

/-- Every next state of the HOST's move: the outputs taken, an error reported, or a run started. -/
theorem hostMove_cases {s t : State} (h : hostMove s = .next t) :
    (∃ inv, s.active = some inv ∧ s.ended = true ∧ t = s.collect inv) ∨
    (∃ inv rest cls, s.active = none ∧ s.jobs = inv :: rest ∧
      checkInvocation s.params inv = .error cls ∧ t = { s with jobs := rest }.raiseHost cls) ∨
    (∃ inv rest F, s.active = none ∧ s.jobs = inv :: rest ∧ F ≠ [] ∧
      checkInvocation s.params inv = .ok F ∧
      t = { s with jobs := rest }.startRun inv (frameWords F)) := by
  unfold hostMove at h
  split at h
  · next inv ha =>
    split at h
    · next he => cases h; exact .inl ⟨inv, ha, he, rfl⟩
    · cases h
  · next ha =>
    split at h
    · next inv rest hj =>
      unfold launch at h
      split at h
      · next cls hc => cases h; exact .inr (.inl ⟨inv, rest, cls, ha, hj, hc, rfl⟩)
      · cases h
      · next u us hc =>
        cases h
        exact .inr (.inr ⟨inv, rest, u :: us, ha, hj, by simp, hc, rfl⟩)
    · cases h

/-- Every next state of a step: reset served, an operation run, or the HOST's move. -/
theorem step_cases {s t : State} (h : step s = .next t) :
    (s.resetIn = true ∧ t = s.applyReset) ∨
    (∃ w s', s.resetIn = false ∧ fetch s = some (w, s') ∧ exec (decode w) s' = .next t) ∨
    (s.resetIn = false ∧ fetch s = none ∧ hostMove s = .next t) := by
  unfold step at h
  split at h
  · next hr => cases h; exact .inl ⟨hr, rfl⟩
  · next hr =>
    have hr : s.resetIn = false := by simpa using hr
    split at h
    · next w s' hf => exact .inr (.inl ⟨w, s', hr, hf, h⟩)
    · next hf => exact .inr (.inr ⟨hr, hf, h⟩)

theorem step_of_fetch {s s' : State} {w : PortWord} (hr : s.resetIn = false)
    (hf : fetch s = some (w, s')) : step s = exec (decode w) s' := by
  simp [step, hr, hf]

theorem step_of_idle {s : State} (hr : s.resetIn = false) (hf : fetch s = none) :
    step s = hostMove s := by
  simp [step, hr, hf]

end Sys2Proof.Machine
end

