-- ==== Sys2Proof/Laws/Units.lean ====
section
/-! SUPPORT. Small laws of the units' functions: the levels and ranks, the words and bytes of pixels, the
characters TXR writes, and the presentation of a word. -/

namespace Sys2Proof.Machine

/-! ## Levels, ranks, lanes -/

theorem quantize_eq_expand (i : Byte) : quantize i = expand (rank i) := by
  unfold quantize rank
  split
  · rfl
  · split
    · rfl
    · split <;> rfl

/-- A level is the expansion of its code (R66, R84). -/
theorem eq_expand_of_isLevel {l : Byte} (h : isLevel l = true) : l = expand (codeOf l) := by
  revert l; decide

theorem isLevel_expand (c : Code) : isLevel (expand c) = true := by revert c; decide

theorem codeOf_expand (c : Code) : codeOf (expand c) = c := by revert c; decide

theorem quantize_expand (c : Code) : quantize (expand c) = expand c := by revert c; decide

/-- The pack of four levels is the concatenation of their codes. -/
theorem pack_expand (cr cg cb ca : Code) :
    pack (expand cr) (expand cg) (expand cb) (expand ca) = ca ++ cr ++ cg ++ cb := by
  revert cr cg cb ca; decide

/-! ## Pixels and words -/

@[simp] theorem lastOf_word (last : Bool) (t : Pixel) : lastOf (t.word last) = last := by
  cases t <;> simp [Pixel.word]

@[simp] theorem pixelOf_word (last : Bool) (t : Pixel) : pixelOf (t.word last) = t := by
  cases t <;> simp [Pixel.word, pixelOf]

@[simp] theorem wordByte_word (last : Bool) (t : Pixel) : wordByte (t.word last) = px t := by
  simp [wordByte]

@[simp] theorem length_frameWords (F : List Pixel) : (frameWords F).length = F.length := by
  induction F with
  | nil => rfl
  | cons t F ih =>
    cases F with
    | nil => rfl
    | cons u F => simpa [frameWords] using ih

/-- The bytes of a frame's words are what convert gives (R118). -/
@[simp] theorem map_wordByte_frameWords (F : List Pixel) :
    (frameWords F).map wordByte = convert F := by
  induction F with
  | nil => rfl
  | cons t F ih =>
    cases F with
    | nil => simp [frameWords, convert]
    | cons u F => simpa [frameWords, convert] using ih

/-- The HOST's frames are framed as R119 asks. -/
theorem frameWf_frameWords {F : List Pixel} (h : F ≠ []) : frameWf (frameWords F) = true := by
  induction F with
  | nil => exact absurd rfl h
  | cons t F ih =>
    cases F with
    | nil => simp [frameWords, frameWf]
    | cons u F =>
      have := ih (by simp)
      cases F <;> simp_all [frameWords, frameWf]

/-- In a framed sequence LAST stands on the final word and on no other. -/
theorem frameWf_iff (ws : List PixWord) :
    frameWf ws = true ↔
      ∃ init w, ws = init ++ [w] ∧ lastOf w = true ∧ ∀ v ∈ init, lastOf v = false := by
  induction ws with
  | nil => simp [frameWf]
  | cons a ws ih =>
    cases ws with
    | nil =>
      constructor
      · intro h; exact ⟨[], a, rfl, h, by simp⟩
      · rintro ⟨init, w, h, hw, -⟩
        cases init with
        | nil => cases h; exact hw
        | cons => simp at h
    | cons b ws =>
      rw [frameWf, Bool.and_eq_true, Bool.not_eq_true', ih]
      constructor
      · rintro ⟨ha, init, w, h, hw, hi⟩
        exact ⟨a :: init, w, by rw [h]; rfl, hw, by simpa using ⟨ha, hi⟩⟩
      · rintro ⟨init, w, h, hw, hi⟩
        cases init with
        | nil => simp at h
        | cons c init =>
          obtain ⟨hac, hrest⟩ := List.cons.inj h
          exact ⟨hi a (by simp [hac]), init, w, hrest, hw, fun v hv => hi v (by simp [hv])⟩

/-! ## Text -/

@[simp] theorem length_entry (b : Byte) : (entry b).length = 4 := rfl

theorem emitAll_append (p : Params) (j : Nat) (ws vs : List PixWord) :
    emitAll p j (ws ++ vs) = emitAll p j ws ++ emitAll p (j + ws.length) vs := by
  induction ws generalizing j with
  | nil => simp [emitAll]
  | cons w ws ih =>
    simp only [List.cons_append, emitAll, ih, List.length_cons, List.append_assoc]
    congr 3
    omega

@[simp] theorem decode_feedWord (w : PixWord) :
    decode (.txr (feedWord w)) = .txe (lastOf w) (wordByte w) := by
  simp [feedWord]

/-! ## The presented word -/

theorem getElem?_placeAt (ws : List PixWord) (k : Nat) (w : PixWord) :
    (placeAt ws k w)[k]? = some w := by
  have h : (ws.take k ++ List.replicate (k - ws.length) 0).length = k := by simp; omega
  unfold placeAt
  rw [List.getElem?_append_right (by omega), h]
  simp

/-- The presented word is the one fetched (log 20). -/
theorem fetch_present (s : State) (w : PortWord) :
    ∃ s', fetch (s.present w) = some (w, s') ∧ s'.k = s.k ∧ s'.j = s.j ∧ s'.out = s.out ∧
      s'.txt = s.txt ∧ (s.present w).resetIn = false := by
  cases w with
  | qnt w => exact ⟨_, rfl, rfl, rfl, rfl, rfl, rfl⟩
  | pck w => exact ⟨_, rfl, rfl, rfl, rfl, rfl, rfl⟩
  | pix w =>
    refine ⟨s.present (.pix w), ?_, rfl, rfl, rfl, rfl, rfl⟩
    simp [fetch, State.present, State.memReadPixin, getElem?_placeAt]
  | txr w => exact ⟨_, rfl, rfl, rfl, rfl, rfl, rfl⟩

end Sys2Proof.Machine
end

