-- ==== Sys2Proof/Laws/Run.lean ====
section
/-! SUPPORT. Laws of the run's invariant: where it holds at once, what leaves it alone, and what the
consumed transactions are. -/

namespace Sys2Proof.Machine

theorem OutInv.length_consumed {s : State} (h : OutInv s) : s.consumed.length = s.out.length := by
  simp [State.consumed, h.1]

/-- The invariant holds of a cleared block. -/
theorem runInv_of_cleared {t : State} (hout : t.out = []) (hk : t.k = 0) (hj : t.j = 0)
    (he : t.ended = false) (htxt : t.txt = []) (htxr : t.txrIn = []) : RunInv t := by
  refine ⟨⟨by simp [hout], by simp [hout, State.consumed, Memory.cellsFrom], by simp [he],
    by simp [hout, hk, State.consumed]⟩, fun _ => ⟨0, ?_⟩, fun _ => ⟨htxr, htxt, hj⟩⟩
  simp [State.consumed, hout, htxr, htxt, hj, emitAll]

/-- The invariant speaks of eight fields only. -/
theorem runInv_congr {s t : State} (h : RunInv s) (hout : t.out = s.out) (hk : t.k = s.k)
    (hj : t.j = s.j) (he : t.ended = s.ended) (htxt : t.txt = s.txt) (htxr : t.txrIn = s.txrIn)
    (hpix : t.pixin = s.pixin) (hp : t.params = s.params) : RunInv t := by
  have hc : t.consumed = s.consumed := by simp [State.consumed, hout, hpix]
  unfold RunInv OutInv TextInv at *
  rw [hout, hk, hj, he, htxt, htxr, hpix, hp, hc]
  exact h

/-- Rendering one more transaction appends its emission. -/
theorem emitAll_take_succ (p : Params) {ws : List PixWord} {m : Nat} {w : PixWord}
    (h : ws[m]? = some w) :
    emitAll p 0 (ws.take (m + 1)) =
      emitAll p 0 (ws.take m) ++ emission p m (lastOf w) (wordByte w) := by
  have hm : m < ws.length := (List.getElem?_eq_some_iff.mp h).1
  have hl : (ws.take m).length = m := by simp; omega
  rw [List.take_add_one, h, emitAll_append]
  simp [emitAll, hl]

/-- In a framed sequence exactly the final word carries LAST. -/
theorem lastOf_iff_final {ws : List PixWord} {m : Nat} {w : PixWord} (hf : frameWf ws = true)
    (h : ws[m]? = some w) : lastOf w = true ↔ m + 1 = ws.length := by
  obtain ⟨init, v, rfl, hv, hi⟩ := (frameWf_iff _).mp hf
  by_cases hm : m < init.length
  · rw [List.getElem?_append_left hm] at h
    have := hi w (List.mem_of_getElem? h)
    simp [this]
    omega
  · have hl : m < (init ++ [v]).length := (List.getElem?_eq_some_iff.mp h).1
    have hm' : m = init.length := by simp at hl; omega
    subst hm'
    have hvw : v = w := by simpa using h
    simp [← hvw, hv]

/-- Steps add up. -/
theorem stepN_add {m : Nat} (n : Nat) {s t : State} (h : stepN m s = .next t) :
    stepN (m + n) s = stepN n t := by
  induction m generalizing s with
  | zero => cases h; simp
  | succ m ih =>
    rw [show m + 1 + n = (m + n) + 1 by omega]
    simp only [stepN] at *
    cases hs : step s with
    | next u => rw [hs] at h; exact ih h
    | fault r => rw [hs] at h; cases h
    | refused r => rw [hs] at h; cases h

end Sys2Proof.Machine
end

