-- ==== Sys2Proof/Laws/Text.lean ====
section
/-! SUPPORT. Laws of TXR's text: parsing over text without 0x and over an entry, the row breaks counted,
and the text of framed words (spec 43_text_renderer.md R141, R143, R147). -/

namespace Sys2Proof.Machine

/-! ## Parsing -/

theorem parse_cons_of_not {c : Byte} {t : Text} (h : ¬(c = chZero ∧ t.head? = some chX)) :
    parse (c :: t) = parse t := by
  have : occurrence (c :: t) = none := by
    unfold occurrence
    split <;> simp_all
  simp [parse, this]

/-- Text without 0x, not followed by an x, adds nothing to the parse. -/
theorem parse_append_of_no0x {u t : Text} (h : has0x u = false) (ht : t.head? ≠ some chX) :
    parse (u ++ t) = parse t := by
  induction u with
  | nil => rfl
  | cons c u ih =>
    cases u with
    | nil => exact parse_cons_of_not fun h => ht h.2
    | cons d u =>
      simp only [has0x, Bool.or_eq_false_iff, Bool.and_eq_false_iff, beq_eq_false_iff_ne] at h
      rw [List.cons_append, parse_cons_of_not, ih h.2]
      rintro ⟨hc, hd⟩
      simp only [List.cons_append, List.head?_cons, Option.some.injEq] at hd
      exact h.1.elim (fun h => h hc) fun h => h hd

/-- A digit reads as its value and is no x (R136). -/
theorem hexValue_hexDigit (d : BitVec 4) :
    hexValue (hexDigit d) = some d ∧ hexDigit d ≠ chX := by
  revert d; decide

theorem nibbles_append (b : Byte) : b.extractLsb' 4 4 ++ b.extractLsb' 0 4 = b := by
  revert b; decide

/-- An entry not followed by an x parses to its byte. -/
theorem parse_entry_append (b : Byte) {t : Text} (h : t.head? ≠ some chX) :
    parse (entry b ++ t) = (parse t).map (b :: ·) := by
  have hu := hexValue_hexDigit (b.extractLsb' 4 4)
  have hl := hexValue_hexDigit (b.extractLsb' 0 4)
  have ho : occurrence (entry b ++ t) = some (some b) := by
    simp only [entry, hex2, List.cons_append, List.nil_append, occurrence, and_self, ↓reduceIte,
      hexByte, hu.1, hl.1, nibbles_append]
  have hrest : parse (chX :: hexDigit (b.extractLsb' 4 4) :: hexDigit (b.extractLsb' 0 4) :: t) =
      parse t := by
    rw [parse_cons_of_not (fun h => absurd h.1 (by decide)),
      parse_cons_of_not (fun h => hl.2 (by simpa using h.2)),
      parse_cons_of_not (fun h' => h h'.2)]
  have : parse (entry b ++ t) =
      match occurrence (entry b ++ t),
        parse (chX :: hexDigit (b.extractLsb' 4 4) :: hexDigit (b.extractLsb' 0 4) :: t) with
      | none, r => r
      | some (some b), some bs => some (b :: bs)
      | some _, _ => none := rfl
  rw [this, ho, hrest]
  cases parse t <;> rfl

/-! ## Row breaks -/

/-- One more entry adds the characters of its row break (R139, R147). -/
theorem breakCount_succ (p : Params) (j : Nat) :
    breakCount p (j + 1) * p.txtBrk.length =
      breakCount p j * p.txtBrk.length + (rowBreak p j).length := by
  have hc : breakCount p (j + 1) = breakCount p j +
      if j % rowLen = 0 ∧ (0 < j ∨ p.breakAtZero = true) then 1 else 0 := by
    unfold breakCount rowLen
    cases p.breakAtZero
    · simp; split <;> omega
    · simp; split <;> omega
  rw [hc, rowBreak]
  split <;> simp [Nat.add_mul]

/-! ## Framed words -/

/-- The pieces of a sequence from position `j` on, the first of them apart (R141). -/
theorem pieces_cons (p : Params) (b : Byte) (bs : List Byte) (j : Nat) :
    ((b :: bs).mapIdx fun i c => piece p (j + (b :: bs).length) (j + i) c).flatten =
      piece p (j + (b :: bs).length) j b ++
        (bs.mapIdx fun i c => piece p (j + 1 + bs.length) (j + 1 + i) c).flatten := by
  have h : ∀ i c, piece p (j + (b :: bs).length) (j + (i + 1)) c =
      piece p (j + 1 + bs.length) (j + 1 + i) c := by
    intro i c
    rw [show j + (b :: bs).length = j + 1 + bs.length by rw [List.length_cons]; omega,
      show j + (i + 1) = j + 1 + i by omega]
  rw [List.mapIdx_cons, List.flatten_cons]
  simp only [h, Nat.add_zero]

theorem emitAll_eq_pieces (p : Params) {ws : List PixWord} (j : Nat) (h : frameWf ws = true) :
    emitAll p j ws = (if j = 0 then p.txtPrefix else []) ++
      ((ws.map wordByte).mapIdx fun i b => piece p (j + (ws.map wordByte).length) (j + i) b).flatten
      ++ p.txtSuffix := by
  induction ws generalizing j with
  | nil => simp [frameWf] at h
  | cons w ws ih =>
    cases ws with
    | nil =>
      have hw : lastOf w = true := h
      simp [emitAll, emission, hw, piece]
    | cons v ws =>
      simp only [frameWf, Bool.and_eq_true, Bool.not_eq_true'] at h
      rw [emitAll, ih (j + 1) h.2, List.map_cons (a := w), pieces_cons]
      simp [emission, h.1, piece]

/-- What TXR writes of a framed sequence from position 0 is render of its bytes. -/
theorem render_eq_emitAll (p : Params) {ws : List PixWord} (h : frameWf ws = true) :
    render p (ws.map wordByte) = some (emitAll p 0 ws) := by
  have hne : ws.map wordByte ≠ [] := by
    cases ws with
    | nil => simp [frameWf] at h
    | cons => simp
  rw [render, if_neg hne, emitAll_eq_pieces p 0 h]
  simp

end Sys2Proof.Machine
end

