-- ==== Sys2Proof/Tests/Slice0.lean ====
section
/-! SUPPORT. Tests with expected values taken from spec 95_test_vectors.md (its sections are named
below), ill-formed terms for each check of WellFormed, and for each obligation that has hypotheses a
concrete state and operands that meet them (named witness_<obligation>). -/

namespace Sys2Proof.Tests

open Sys2Proof Sys2Proof.Machine

/-! ## Small states -/

/-- Parameters for tests: prefix P, suffix S, break LF and a space, no break at entry 0; tintin is the
smallest tag and the three spellings are t, s and c. -/
def params : Params where
  hasTxr := true
  txtPrefix := [0x50#8]
  txtSuffix := [0x53#8]
  txtBrk := [0x0A#8, 0x20#8]
  breakAtZero := false
  lat := 0
  smallestTag := .tintin
  spellTintin := [0x74#8]
  spellSnowy := [0x73#8]
  spellChalk := [0x63#8]

/-- The block after reset, with the test parameters. -/
def base : State := { State.reset with params := params }

/-- The same block without TXR. -/
def bare : State := { State.reset with params := { params with hasTxr := false } }

/-- A black pixel without alpha, whose byte is 0xC0. -/
def black : Pixel := .rgb 0#8 0#8 0#8

/-- `n` black pixels. -/
def image (n : Nat) : List Pixel := List.replicate n black

/-- A frame of a 4-tuple and a 3-tuple. -/
def mixed : List Pixel := [.rgba 255#8 128#8 43#8 213#8, black]

/-- An invocation with all its arguments, for the platform string of one character. -/
def call (tag : Byte) (answer : Option (List Pixel)) : Invocation :=
  ⟨some [tag], some [0x69#8], some [0x6F#8], answer⟩

/-- The HOST has one invocation to begin. -/
def asked (inv : Invocation) : State := { base with jobs := [inv] }

/-- The block at the start of a run on the mixed frame. -/
def loaded : State := { base with pixin := frameWords mixed }

/-- The run of one black pixel, at its end, before the HOST takes the outputs. -/
def done : State :=
  { base with
    pixin := frameWords [black]
    out := [(0, 0xC0#8)]
    txt := [0x50#8, 0x30#8, 0x78#8, 0x63#8, 0x30#8, 0x53#8]
    ended := true
    active := some (call 0x63#8 (some [black])) }

/-! ## Decoding: words from sections 2.1 to 2.7 -/

theorem test_decode_qnt : decodeTableWord 8 0x2B = some (.qnt 43#8) := by decide

theorem test_decode_pck :
    decodeTableWord 32 0x12345678 = some (.pck 0x12#8 0x34#8 0x56#8 0x78#8) := by decide

theorem test_decode_pix4 :
    decodeTableWord 40 0x12A2B8081 = some (.pix4 false 42#8 43#8 128#8 129#8) := by decide

theorem test_decode_pix4_last :
    decodeTableWord 40 0x300000000 = some (.pix4 true 0#8 0#8 0#8 0#8) := by decide

theorem test_decode_pix3_ignored_field :
    decodeTableWord 40 0x0000000FF = some (.pix3 false 0#8 0#8 0#8) ∧
    decodeTableWord 40 0x2FFFFFF00 = some (.pix3 true 255#8 255#8 255#8) := by decide

theorem test_decode_txe : decodeTableWord 16 0x105 = some (.txe true 0x05#8) := by decide

theorem test_encode_words :
    encode (.qnt 0xD5#8) = .qnt 0xD5#8 ∧
    encode (.pck 170#8 0#8 0#8 0#8) = .pck 0xAA000000#32 ∧
    encode (.pix4 true 200#8 100#8 50#8 25#8) = .pix 0x3C8643219#34 ∧
    encode (.pix3 false 85#8 170#8 255#8) = .pix 0x055AAFF00#34 ∧
    encode (.txe true 0xFF#8) = .txr 0x1FF#9 := by decide

/-- Each format refuses the first number it has no bits for; a length of no format is refused. -/
theorem test_decode_refuses_by_name :
    readTableWord 8 0x100 = .error (.wordTooWide .qnt) ∧
    readTableWord 32 0x100000000 = .error (.wordTooWide .pck) ∧
    readTableWord 40 0x400000000 = .error (.wordTooWide .pix) ∧
    readTableWord 16 0x200 = .error (.wordTooWide .txr) ∧
    readTableWord 24 0 = .error (.noSuchFormat 24) := ⟨rfl, rfl, rfl, rfl, rfl⟩

/-! ## Meanings, one step each -/

/-- Section 2.2: the last input of level 85, whose nearest level is 170. -/
theorem test_qnt_128 : ∃ t, step (base.withFetchWord 8 0x80) = .next t ∧
    t.qntOut = some ⟨85#8, 1#2⟩ := ⟨_, rfl, by decide⟩

/-- Section 2.2: the first input of level 170. -/
theorem test_qnt_129 : ∃ t, step (base.withFetchWord 8 0x81) = .next t ∧
    t.qntOut = some ⟨170#8, 2#2⟩ := ⟨_, rfl, by decide⟩

/-- S10: masking 0x55 with 0xC0 yields 0x40. -/
theorem test_pck_alpha : ∃ t, step (base.withFetchWord 32 0x00000055) = .next t ∧
    t.pckOut = some 0x40#8 := ⟨_, rfl, by decide⟩

/-- Section 2.4: an out-of-contract word. -/
theorem test_pck_out_of_contract : ∃ t, step (base.withFetchWord 32 0x12345678) = .next t ∧
    t.pckOut = some 0x56#8 := ⟨_, rfl, by decide⟩

/-- Section 2.5, at position 7. -/
theorem test_pix4_writes_at_k : ∃ t,
    step ({ base with k := 7 }.withFetchWord 40 0x1FF802BD5) = .next t ∧
    Memory.read t.out 7 = some 0xF5#8 ∧ t.k = 8 := ⟨_, rfl, by decide⟩

/-- Section 3, program 1: the last pixel returns k to 0. -/
theorem test_pix4_last : ∃ t,
    step ({ base with k := 3 }.withFetchWord 40 0x3C8643219) = .next t ∧
    Memory.read t.out 3 = some 0x25#8 ∧ t.k = 0 ∧ t.pixOut = some ⟨0x25#8, true⟩ :=
  ⟨_, rfl, by decide⟩

/-- Section 2.6: the ignored field 0x55 does not become an alpha. -/
theorem test_pix3_default_alpha : ∃ t, step (base.withFetchWord 40 0x000000055) = .next t ∧
    t.pixOut = some ⟨0xC0#8, false⟩ := ⟨_, rfl, by decide⟩

/-- Section 3, program 2: the last pixel. -/
theorem test_pix3_last : ∃ t,
    step ({ base with k := 4 }.withFetchWord 40 0x22B2A2900) = .next t ∧
    Memory.read t.out 4 = some 0xD0#8 ∧ t.k = 0 := ⟨_, rfl, by decide⟩

/-- Section 2.7: the first entry of the three-byte case, prefix, 0xc0, comma and space. -/
theorem test_txe_first : ∃ t, step (base.withFetchWord 16 0x0C0) = .next t ∧
    t.txt = [0x50#8, 0x30#8, 0x78#8, 0x63#8, 0x30#8, 0x2C#8, 0x20#8] ∧ t.j = 1 :=
  ⟨_, rfl, by decide⟩

/-- Section 3, program 4: the final entry, of index 144, after a break and before the suffix. -/
theorem test_txe_break_and_suffix : ∃ t,
    step ({ base with j := 144 }.withFetchWord 16 0x1F5) = .next t ∧
    t.txt = [0x0A#8, 0x20#8, 0x30#8, 0x78#8, 0x66#8, 0x35#8, 0x53#8] ∧ t.j = 0 :=
  ⟨_, rfl, by decide⟩

/-- From reset itself, whatever the parameters, each format's word runs at the very next step. -/
theorem test_reset_runs_each_format :
    (∃ t, step (State.reset.withFetchWord 8 0x2A) = .next t) ∧
    (∃ t, step (State.reset.withFetchWord 32 0) = .next t) ∧
    (∃ t, step (State.reset.withFetchWord 40 0) = .next t) ∧
    (∃ t, step (State.reset.withFetchWord 40 0x300000000) = .next t) ∧
    (∃ t, step (State.reset.withFetchWord 16 0) = .next t) :=
  ⟨⟨_, rfl⟩, ⟨_, rfl⟩, ⟨_, rfl⟩, ⟨_, rfl⟩, ⟨_, rfl⟩⟩

/-- Section 2.7: the round trip of the three-byte case. -/
theorem test_parse_round_trip :
    (render params [0xC0#8, 0x0A#8, 0xFF#8]).bind parse = some [0xC0#8, 0x0A#8, 0xFF#8] := by
  decide

/-- S12 and section 2.8: the bounds are strict. -/
theorem test_size_bounds :
    tooLarge 24192 .mid = false ∧ tooLarge 24193 .mid = true ∧
    tooLarge 32400 .large = false ∧ tooLarge 32401 .large = true ∧
    tooLarge 24193 .large = false ∧ tooLarge 32400 .mid = true := by decide

/-- Section 2.8: what the HOST reports of the smallest tag, another string, no image, no argument. -/
theorem test_host_errors :
    checkInvocation params (call 0x74#8 (some (image 1))) = .error .unsupportedPlatform ∧
    checkInvocation params (call 0x7A#8 (some (image 1))) = .error .invalidPlatform ∧
    checkInvocation params (call 0x73#8 none) = .error .decode ∧
    checkInvocation params ⟨none, some [], some [], none⟩ = .error .usage ∧
    checkInvocation params (call 0x73#8 (some (image 1))) = .ok (image 1) :=
  ⟨rfl, rfl, rfl, rfl, rfl⟩

/-! ## WellFormed: an ill-formed term for each check -/

theorem test_contract_refuses_non_level :
    Instr.inContract (.pck 0x12#8 0#8 0#8 0#8) = false ∧
    Instr.inContract (.pck 0#8 0x54#8 0#8 0#8) = false ∧
    Instr.inContract (.pck 0#8 0#8 0xAB#8 0#8) = false ∧
    Instr.inContract (.pck 0#8 0#8 0#8 0xFE#8) = false ∧
    Instr.inContract (.pck 0#8 0x55#8 0xAA#8 0xFF#8) = true := by decide

theorem test_frame_refuses_empty : frameWf [] = false := by decide

theorem test_frame_refuses_missing_last : frameWf [black.word false, black.word false] = false := by
  decide

theorem test_frame_refuses_early_last : frameWf [black.word true, black.word true] = false := by
  decide

theorem test_frame_accepts : frameWf (frameWords mixed) = true := by decide

theorem test_textOk_refuses_0x :
    Params.textOk { params with txtPrefix := [chZero, chX] } = false ∧
    Params.textOk { params with txtSuffix := [0x53#8, chZero, chX] } = false ∧
    Params.textOk { params with txtBrk := [chLF, chZero, chX] } = false := by decide

theorem test_textOk_refuses_non_ascii :
    Params.textOk { params with txtPrefix := [0x80#8] } = false ∧
    Params.textOk { params with txtSuffix := [0xFF#8] } = false ∧
    Params.textOk { params with txtBrk := [chLF, 0x80#8] } = false := by decide

theorem test_textOk_refuses_suffix_x :
    Params.textOk { params with txtSuffix := [chX] } = false := by decide

theorem test_textOk_refuses_break_without_newline :
    Params.textOk { params with txtBrk := [] } = false ∧
    Params.textOk { params with txtBrk := [chSpace, chLF] } = false ∧
    Params.textOk { params with txtBrk := [chCR, chSpace] } = false := by decide

theorem test_textOk_accepts :
    params.textOk = true ∧ Params.textOk { params with txtBrk := [chCR, chLF] } = true := by decide

/-! ## Witnesses: encoding and units -/

/-- Both clauses, at the last number that fits each format and the first that does not. -/
theorem witness_NumbersReadAsWords :
    (255 < 2 ^ Port.qnt.width ∧ 2 ^ Port.qnt.width ≤ 256) ∧
    (4294967295 < 2 ^ Port.pck.width ∧ 2 ^ Port.pck.width ≤ 4294967296) ∧
    (17179869183 < 2 ^ Port.pix.width ∧ 2 ^ Port.pix.width ≤ 17179869184) ∧
    (511 < 2 ^ Port.txr.width ∧ 2 ^ Port.txr.width ≤ 512) := by decide

theorem witness_QuantizeIsTotalAndPure : isLevel 0#8 = true ∧ isLevel 255#8 = true := by decide

/-- The two inputs of a threshold, and equal inputs. -/
theorem witness_QuantizeIsIdempotentAndMonotone : 42#8 ≤ 43#8 ∧ 128#8 ≤ 128#8 := by decide

/-- The neighbours of 128, with the levels on both sides. -/
theorem witness_QuantizeIsNearestBut128 :
    127#8 ≠ 128#8 ∧ isLevel 170#8 = true ∧ 129#8 ≠ 128#8 ∧ isLevel 85#8 = true := by decide

/-- The comparators, at the first input that fires each of the later two. -/
theorem witness_ComparatorsAndEncoderGiveTheRank :
    comparators 129#8 = (true, true, false) ∧ comparators 213#8 = (true, true, true) := by decide

theorem witness_PckMasksAndOrsLevels :
    Instr.inContract (.pck 0xFF#8 0x55#8 0x00#8 0xAA#8) = true := by decide

theorem witness_PackOfLevelsIsTheirCodes :
    Instr.inContract (.pck 0#8 0#8 0#8 0#8) = true ∧
    Instr.inContract (.pck 255#8 255#8 255#8 255#8) = true := by decide

theorem witness_PackIsBijectiveOnLevels :
    Instr.inContract (.pck 0xAA#8 0xFF#8 0x00#8 0x55#8) = true ∧
    pack 0xAA#8 0xFF#8 0x00#8 0x55#8 = 0x6C#8 := by decide

/-- Both operations, on a block with TXR and on one without. -/
theorem witness_PixEndsTheFrameAndFeedsTxr :
    (Instr.pix3 true 1#8 2#8 3#8 = .pix4 true 1#8 2#8 3#8 4#8 ∨
      Instr.pix3 true 1#8 2#8 3#8 = .pix3 true 1#8 2#8 3#8) ∧
    (Instr.pix4 false 1#8 2#8 3#8 4#8 = .pix4 false 1#8 2#8 3#8 4#8 ∨
      Instr.pix4 false 1#8 2#8 3#8 4#8 = .pix3 false 1#8 2#8 3#8) ∧
    base.params.hasTxr = true ∧ bare.params.hasTxr = false := by decide

/-- Both clauses: words that differ in the ignored bits only, and a word with AP set. -/
theorem witness_Pix3IgnoresItsLowByte :
    ((0x000000000#34).getLsbD 32 = false ∧ 0x000000000#34 >>> 8 = 0x0000000FF#34 >>> 8) ∧
    (0x1000000D5#34).getLsbD 32 = true := by decide

theorem witness_PixelHasItsClosedForm :
    Instr.inContract (.pck 170#8 0#8 0#8 0#8) = true := by decide

theorem witness_PixRangesOfBytes : 0xC0 ≤ (0xC0#8).toNat ∧ px black = 0xC0#8 := by decide

/-- One operation of each of the three units. -/
theorem witness_OtherUnitsLeaveOutAlone :
    (∃ t, exec (.qnt 1#8) loaded = .next t) ∧
    (∃ t, exec (.pck 1#8 2#8 3#8 4#8) loaded = .next t) ∧
    (∃ t, exec (.txe false 9#8) loaded = .next t) := ⟨⟨_, rfl⟩, ⟨_, rfl⟩, ⟨_, rfl⟩⟩

/-! ## Witnesses: the run -/

/-- The invariant at the start of a run. -/
theorem loaded_inv : RunInv loaded := runInv_of_cleared rfl rfl rfl rfl rfl rfl

/-- The invariant at the end of a run. -/
theorem done_inv : RunInv done := by
  refine ⟨⟨Nat.le_refl 1, by decide, fun _ => ⟨rfl, by decide⟩, fun h => by cases h⟩,
    fun _ => ⟨1, Nat.le_refl 1, rfl, by decide, rfl⟩, fun h => by cases h⟩

/-- A step that writes OUT. -/
theorem witness_StepKeepsOutCanonical :
    (∃ t, step loaded = .next t) ∧ Memory.wf loaded.out = true := ⟨⟨_, rfl⟩, rfl⟩

/-- A pixel step, and the HOST's step at the end. -/
theorem witness_StepKeepsTheRunInvariant :
    (RunInv loaded ∧ ∃ t, step loaded = .next t) ∧ (RunInv done ∧ ∃ t, step done = .next t) :=
  ⟨⟨loaded_inv, _, rfl⟩, done_inv, _, rfl⟩

/-- The last index of OUT, and the first beyond it. -/
theorem witness_OutIsTheImageOfPixin :
    RunInv done ∧ 0 < done.out.length ∧ ¬ 1 < done.out.length := ⟨done_inv, by decide, by decide⟩

theorem witness_TextOfAnEndedRunIsRenderOfOut :
    RunInv done ∧ done.params.hasTxr = true ∧ done.ended = true ∧ done.txrIn = [] :=
  ⟨done_inv, rfl, rfl, rfl⟩

/-- With TXR and without. -/
theorem witness_FrameRunConvertsTheFrame :
    mixed ≠ [] ∧ Loaded loaded mixed ∧ loaded.params.hasTxr = true ∧
    Loaded { bare with pixin := frameWords mixed } mixed ∧ bare.params.hasTxr = false :=
  ⟨by decide, ⟨rfl, rfl, rfl, rfl, rfl, rfl, rfl, rfl, rfl, rfl⟩, rfl,
    ⟨rfl, rfl, rfl, rfl, rfl, rfl, rfl, rfl, rfl, rfl⟩, rfl⟩

/-! ## Witnesses: TXR -/

theorem witness_TxeAppendsOneEntry : base.params.hasTxr = true := rfl

theorem witness_TxeNeedsTxr : bare.params.hasTxr = false := rfl

theorem witness_TxeFrameWritesRender :
    [0xC0#8, 0x0A#8, 0xFF#8] ≠ [] ∧ base.params.hasTxr = true ∧ base.j = 0 := by decide

theorem witness_RenderParsesBack :
    params.textOk = true ∧ ∃ u, render params [0xC0#8, 0x0A#8] = some u :=
  ⟨by decide, _, rfl⟩

theorem witness_RenderLength : [0x00#8] ≠ [] := by decide

theorem witness_RenderIsAscii :
    isAscii params.txtPrefix = true ∧ isAscii params.txtSuffix = true ∧
    isAscii params.txtBrk = true ∧ ∃ u, render params [0xFF#8] = some u :=
  ⟨by decide, by decide, by decide, _, rfl⟩

/-! ## Witnesses: the HOST -/

theorem asked_idle (inv : Invocation) : HostIdle (asked inv) := ⟨rfl, rfl, rfl⟩

/-- Each argument missing in turn. -/
theorem witness_MissingArgumentIsUsageError :
    HostIdle (asked ⟨none, some [], some [], none⟩) ∧
    (asked ⟨none, some [], some [], none⟩).jobs = [⟨none, some [], some [], none⟩] ∧
    (asked ⟨some [], none, some [], none⟩).jobs = [⟨some [], none, some [], none⟩] ∧
    (asked ⟨some [], some [], none, none⟩).jobs = [⟨some [], some [], none, none⟩] :=
  ⟨asked_idle _, rfl, rfl, rfl⟩

theorem witness_UnknownPlatformIsInvalid :
    HostIdle (asked (call 0x7A#8 (some (image 1)))) ∧
    (asked (call 0x7A#8 (some (image 1)))).jobs = [call 0x7A#8 (some (image 1))] ∧
    call 0x7A#8 (some (image 1)) = ⟨some [0x7A#8], some [0x69#8], some [0x6F#8], some (image 1)⟩ ∧
    [0x7A#8] ≠ params.spellTintin ∧ [0x7A#8] ≠ params.spellSnowy ∧ [0x7A#8] ≠ params.spellChalk :=
  ⟨asked_idle _, rfl, rfl, by decide, by decide, by decide⟩

/-- An image with a pixel, and one with none. -/
theorem witness_SmallestPlatformIsUnsupported :
    HostIdle (asked (call 0x74#8 (some (image 1)))) ∧
    HostIdle (asked (call 0x74#8 (some []))) ∧
    platformOf params [0x74#8] = some .smallest := ⟨asked_idle _, asked_idle _, rfl⟩

/-- Either side of the bound, for both supported platforms. -/
theorem witness_SizeBoundIsExact :
    HostIdle (asked (call 0x73#8 (some (image 24192)))) ∧
    platformOf params [0x73#8] = some .mid ∧ platformOf params [0x63#8] = some .large ∧
    Platform.mid ≠ .smallest ∧ Platform.large ≠ .smallest ∧
    (∀ n, 0 < n → image n ≠ []) ∧
    tooLarge (image 24192).length .mid = false ∧ tooLarge (image 24193).length .mid = true ∧
    tooLarge (image 32400).length .large = false ∧ tooLarge (image 32401).length .large = true := by
  refine ⟨asked_idle _, rfl, rfl, by decide, by decide, ?_, ?_, ?_, ?_, ?_⟩
  · intro n hn h
    have := congrArg List.length h
    simp [image] at this
    omega
  all_goals rw [image, List.length_replicate]; decide

theorem witness_UndecodableImageIsDecodeError :
    HostIdle (asked (call 0x73#8 none)) ∧
    call 0x73#8 none = ⟨some [0x73#8], some [0x69#8], some [0x6F#8], none⟩ ∧
    platformOf params [0x73#8] = some .mid ∧ Platform.mid ≠ .smallest :=
  ⟨asked_idle _, rfl, rfl, by decide⟩

/-- A tag for each of the three clauses on the platform. -/
theorem witness_FirstFailingCheckIsReported :
    platformOf params [0x7A#8] = none ∧ platformOf params [0x74#8] = some .smallest ∧
    platformOf params [0x63#8] = some .large ∧ Platform.large ≠ .smallest :=
  ⟨rfl, rfl, rfl, by decide⟩

theorem witness_FailedRunLeavesNoOutput :
    HostIdle (asked (call 0x74#8 (some (image 1)))) ∧
    (asked (call 0x74#8 (some (image 1)))).jobs = [call 0x74#8 (some (image 1))] ∧
    checkInvocation params (call 0x74#8 (some (image 1))) = .error .unsupportedPlatform :=
  ⟨asked_idle _, rfl, rfl⟩

/-- With TXR; without it only the parameter differs. -/
theorem witness_HostRunDeliversTheFiles :
    HostIdle (asked (call 0x63#8 (some mixed))) ∧
    (asked (call 0x63#8 (some mixed))).qntIn = [] ∧
    (asked (call 0x63#8 (some mixed))).pckIn = [] ∧
    (asked (call 0x63#8 (some mixed))).jobs = [call 0x63#8 (some mixed)] ∧ mixed ≠ [] ∧
    checkInvocation params (call 0x63#8 (some mixed)) = .ok mixed ∧
    checkInvocation bare.params (call 0x63#8 (some mixed)) = .ok mixed :=
  ⟨asked_idle _, rfl, rfl, rfl, by decide, rfl, rfl⟩

theorem witness_TakenRunLeavesNothing :
    done.resetIn = false ∧ fetch done = none ∧
    done.active = some (call 0x63#8 (some [black])) ∧
    (call 0x63#8 (some [black])).outputPath = some [0x6F#8] ∧ done.ended = true :=
  ⟨rfl, rfl, rfl, rfl, rfl⟩

theorem witness_NoPixelsNoMeaning :
    HostIdle (asked (call 0x63#8 (some []))) ∧
    (asked (call 0x63#8 (some []))).jobs = [call 0x63#8 (some [])] ∧
    checkInvocation params (call 0x63#8 (some [])) = .ok [] := ⟨asked_idle _, rfl, rfl⟩

/-- Both values of SMALLEST_TAG. -/
theorem witness_TagsNameThePlatforms :
    params.spellTintin ≠ params.spellSnowy ∧ params.spellTintin ≠ params.spellChalk ∧
    params.spellSnowy ≠ params.spellChalk ∧ params.smallestTag = .tintin ∧
    { params with smallestTag := .snowy }.smallestTag = .snowy := by decide

/-! ## Witnesses: the whole machine -/

/-- One state for each of the four ports. -/
theorem witness_StepRunsTheDecodedOperation :
    (base.present (.qnt 7#8)).resetIn = false ∧ (base.present (.qnt 7#8)).qntIn = [7#8] ∧
    (base.present (.pck 7#32)).resetIn = false ∧ (base.present (.pck 7#32)).pckIn = [7#32] ∧
    (base.present (.txr 7#9)).resetIn = false ∧ (base.present (.txr 7#9)).txrIn = [7#9] ∧
    loaded.resetIn = false ∧ loaded.ended = false ∧
    loaded.pixin[loaded.k]? = some 0x1FF802BD5#34 :=
  ⟨rfl, rfl, rfl, rfl, rfl, rfl, rfl, rfl, by decide⟩

/-- A frame that has ended outside a run, a state with no transaction at the position, and a run in
progress with none. -/
theorem witness_NothingOfferedNoStep :
    ({ done with active := none }.ended = true ∧ { done with active := none }.jobs = []) ∧
    (base.resetIn = false ∧ base.pixin[base.k]? = none ∧ base.active = none ∧ base.jobs = []) ∧
    ({ done with ended := false, k := 1 }.pixin[1]? = none ∧
      { done with ended := false, k := 1 }.active ≠ none) :=
  ⟨⟨rfl, rfl⟩, ⟨rfl, rfl, rfl, rfl⟩, rfl, by decide⟩

theorem witness_PresentedWordRunsNext : decodeTableWord 40 0x3FFFFFFFF =
    some (.pix4 true 255#8 255#8 255#8 255#8) := by decide

/-- Reset asserted within a frame. -/
theorem witness_ResetInputDiscardsTheFrame :
    { loaded with resetIn := true, k := 1, out := [(0, 0xF5#8)] }.resetIn = true := rfl

/-- Both disjuncts. -/
theorem witness_CoreAlwaysCompletes :
    base.params.hasTxr = true ∧ (∀ l b, Instr.qnt 0#8 ≠ .txe l b) :=
  ⟨rfl, fun _ _ h => by cases h⟩

theorem witness_StepKeepsTheParameters : ∃ t, step loaded = .next t := ⟨_, rfl⟩

/-- Each case: an operation while an invocation waits, reset asserted, an ended run, an error, a
launch. -/
theorem witness_OnlyTheHostWritesPixin :
    ((∃ t, step { loaded with jobs := [call 0x63#8 none] } = .next t) ∧
      fetch { loaded with jobs := [call 0x63#8 none] } ≠ none) ∧
    (∃ t, step { loaded with resetIn := true } = .next t) ∧
    ((∃ t, step done = .next t) ∧ done.resetIn = false ∧ fetch done = none) ∧
    ((∃ t, step (asked (call 0x63#8 none)) = .next t) ∧ fetch (asked (call 0x63#8 none)) = none) ∧
    (∃ t, step (asked (call 0x63#8 (some mixed))) = .next t) ∧
      fetch (asked (call 0x63#8 (some mixed))) = none :=
  ⟨⟨⟨_, rfl⟩, by decide⟩, ⟨_, rfl⟩, ⟨⟨_, rfl⟩, rfl, rfl⟩, ⟨⟨_, rfl⟩, rfl⟩, ⟨_, rfl⟩, rfl⟩

end Sys2Proof.Tests
end

section
/-! Proofs of the statements about QNT (spec 40_quantizer.md). -/

namespace Sys2Proof.Machine

/-- QNT offers the level and the code of its operand and goes on, in every state (R80, R81). -/
@[simp] theorem exec_qnt (i : Byte) (s : State) :
    exec (.qnt i) s = .next (s.offerQnt ⟨quantize i, rank i⟩) := rfl

/-- The unit's thresholds and levels are the rows of R81's table: the model compares bytes, the table
bounds the unsigned value of the intensity. -/
theorem quantize_eq_table (i : Byte) :
    quantize i = if i.toNat ≤ 42 then 0x00#8
      else if i.toNat ≤ 128 then 0x55#8
      else if i.toNat ≤ 212 then 0xAA#8
      else 0xFF#8 := by
  have le_t0 : i ≤ t0 ↔ i.toNat ≤ 42 := BitVec.le_def
  have le_t1 : i ≤ t1 ↔ i.toNat ≤ 128 := BitVec.le_def
  have le_t2 : i ≤ t2 ↔ i.toNat ≤ 212 := BitVec.le_def
  simp only [quantize, le_t0, le_t1, le_t2, level0, level1, level2, level3]

/-- Settles O6: the offered level is the table's, and offering it writes the output port of QNT alone;
the code offered beside it is the rank. -/
theorem qntGivesLevel : Obligations.QntGivesLevel := by
  intro i s
  refine ⟨rank i, ?_⟩
  rw [exec_qnt, quantize_eq_table]
  rfl

end Sys2Proof.Machine
end

section
/-! Proofs of the statements about PCK (spec 41_packer.md). -/

namespace Sys2Proof.Machine

/-- PCK offers the pack of its operands and goes on, in every state (R100, R101). -/
@[simp] theorem exec_pck (r g b a : Byte) (s : State) :
    exec (.pck r g b a) s = .next (s.offerPck (pack r g b a)) := rfl

/-- Taking a 2-bit slice goes through the ORs and ANDs of R101: a slice of the packed byte depends on
the same slice of the inputs and the masks alone. -/
theorem extractLsb'_pack (r g b a : Byte) (i : Nat) :
    (pack r g b a).extractLsb' i 2 =
      (a.extractLsb' i 2 &&& maskA.extractLsb' i 2) |||
        (r.extractLsb' i 2 &&& maskR.extractLsb' i 2) |||
        (g.extractLsb' i 2 &&& maskG.extractLsb' i 2) |||
        (b.extractLsb' i 2 &&& maskB.extractLsb' i 2) := by
  simp only [pack, BitVec.extractLsb'_or, BitVec.extractLsb'_and]

/-- Each lane of the packed byte is the same lane of the input that owns it, on all inputs: within a
lane its owner's mask is all ones and the other three are zero (R102, R108). -/
theorem lanes_pack (r g b a : Byte) :
    (pack r g b a).extractLsb' 6 2 = a.extractLsb' 6 2 ∧
      (pack r g b a).extractLsb' 4 2 = r.extractLsb' 4 2 ∧
      (pack r g b a).extractLsb' 2 2 = g.extractLsb' 2 2 ∧
      (pack r g b a).extractLsb' 0 2 = b.extractLsb' 0 2 := by
  have and_ones (x : BitVec 2) : x &&& 3#2 = x := BitVec.and_allOnes
  refine ⟨?_, ?_, ?_, ?_⟩ <;>
    simp [extractLsb'_pack, maskA, maskR, maskG, maskB, and_ones]

/-- Settles O12: the offered byte is the masks and ORs of R101 by definition, and offering it writes the
output port of PCK alone. The contract is not needed: the lanes hold of every four bytes. -/
theorem pckMasksAndOrsLevels : Obligations.PckMasksAndOrsLevels := by
  intro r g b a s _
  exact ⟨pack r g b a, exec_pck r g b a s, rfl, lanes_pack r g b a⟩

end Sys2Proof.Machine
end

section
/-! Proofs of the statements about PIX (spec 42_pixel_pipeline.md). -/

namespace Sys2Proof.Machine

/-- An F-PIX word with AP = 1 stands for the PIX4 of its fields (R62, R68). -/
@[simp] theorem decode_pixWord_true (last : Bool) (r g b a : Byte) :
    decode (.pix (pixWord last true r g b a)) = .pix4 last r g b a := by
  simp [decode]

/-- An F-PIX word with AP = 0 stands for the PIX3 of its colour fields, whatever its bits 7:0 are
(R67, R68). -/
@[simp] theorem decode_pixWord_false (last : Bool) (r g b x : Byte) :
    decode (.pix (pixWord last false r g b x)) = .pix3 last r g b := by
  simp [decode]

/-- PIX4 puts the byte of its four channels and goes on, in every state (R115). -/
@[simp] theorem exec_pix4 (last : Bool) (r g b a : Byte) (s : State) :
    exec (.pix4 last r g b a) s = .next (s.putPixel (pixel r g b a) last) := rfl

/-- PIX3 puts the byte of its colours under the default alpha and goes on, in every state (R116). -/
@[simp] theorem exec_pix3 (last : Bool) (r g b : Byte) (s : State) :
    exec (.pix3 last r g b) s = .next (s.putPixel (pixel r g b aDefault) last) := rfl

/-- R117 written out: the masks of the four quantized channels, ORed. -/
theorem pixel_eq_masks (r g b a : Byte) :
    pixel r g b a = (quantize a &&& 0xC0#8) ||| (quantize r &&& 0x30#8) |||
      (quantize g &&& 0x0C#8) ||| (quantize b &&& 0x03#8) := rfl

/-- The A field of a pixel's byte is that of the quantized alpha (R102, R117). -/
theorem alphaLane_pixel (r g b a : Byte) :
    (pixel r g b a).extractLsb' 6 2 = (quantize a).extractLsb' 6 2 :=
  (lanes_pack (quantize r) (quantize g) (quantize b) (quantize a)).1

/-- The step PIX4 and PIX3 share: the byte stands at OUT[k] and every other index of OUT reads as
before, the byte and LAST are offered, the position advances or returns to 0, and only OUT, the ports
of PIX, the position, the run-end flag and the link to TXR may differ (R115, R116, R125). -/
theorem State.putPixel_effect (v : Byte) (last : Bool) (s : State) :
    Memory.read (s.putPixel v last).out s.k = some v ∧
      (∀ x : Nat, x ≠ s.k → Memory.read (s.putPixel v last).out x = Memory.read s.out x) ∧
      (s.putPixel v last).pixOut = some ⟨v, last⟩ ∧
      (s.putPixel v last).k = (if last then 0 else s.k + 1) ∧
      s.putPixel v last =
        { s with
          out := (s.putPixel v last).out
          pixOut := (s.putPixel v last).pixOut
          k := (s.putPixel v last).k
          ended := (s.putPixel v last).ended
          txrIn := (s.putPixel v last).txrIn } := by
  refine ⟨?_, fun x hx => ?_, s.putPixel_pixOut v last, s.putPixel_k v last, rfl⟩
  · rw [State.putPixel_out, Memory.read_write_same]
  · rw [State.putPixel_out, Memory.read_write_other _ _ hx]

/-- Settles O16: PIX4 is the shared pixel step on the byte of R117. -/
theorem pix4ConvertsOnePixel : Obligations.Pix4ConvertsOnePixel := by
  intro last r g b a s
  exact ⟨decode_pixWord_true last r g b a, pixel r g b a, s.putPixel (pixel r g b a) last,
    exec_pix4 last r g b a s, pixel_eq_masks r g b a, s.putPixel_effect (pixel r g b a) last⟩

/-- Settles O17: PIX3 is the shared pixel step with the default alpha, which the quantizer takes to the
level 0xFF, whose A field is all ones. -/
theorem pix3ConvertsWithFullAlpha : Obligations.Pix3ConvertsWithFullAlpha := by
  intro last r g b s
  have alpha_full : (quantize aDefault).extractLsb' 6 2 = 0b11#2 := by decide
  exact ⟨decode_pixWord_false last r g b, pixel r g b aDefault,
    s.putPixel (pixel r g b aDefault) last, exec_pix3 last r g b s, pixel_eq_masks r g b aDefault,
    (alphaLane_pixel r g b aDefault).trans alpha_full, s.putPixel_effect (pixel r g b aDefault) last⟩

end Sys2Proof.Machine
end

section
/-! Proofs of the statements about words (spec 30_encoding.md): a word is the concatenation of its
fields, so that a claim about all words of a format is one about all fields. -/

namespace Sys2Proof

/-! ## Words and their fields -/

/-- The fields of an F-PCK word (R63). -/
@[simp] theorem decode_pckWord (r g b a : Byte) :
    decode (.pck (r ++ g ++ b ++ a)) = .pck r g b a := by
  have := r.isLt; have := g.isLt; have := b.isLt; have := a.isLt
  have hr : (r ++ g ++ b ++ a : PckWord).extractLsb' 24 8 = r :=
    extract_eq_of_div _ _ (by rw [pckWord_toNat]; omega)
  have hg : (r ++ g ++ b ++ a : PckWord).extractLsb' 16 8 = g :=
    extract_eq_of_div _ _ (by rw [pckWord_toNat]; omega)
  have hb : (r ++ g ++ b ++ a : PckWord).extractLsb' 8 8 = b :=
    extract_eq_of_div _ _ (by rw [pckWord_toNat]; omega)
  have ha : (r ++ g ++ b ++ a : PckWord).extractLsb' 0 8 = a :=
    extract_eq_of_div _ _ (by rw [pckWord_toNat]; omega)
  rw [decode, hr, hg, hb, ha]

/-- A one-bit field of a word, as a number. -/
theorem toNat_getLsbD {n : Nat} (w : BitVec n) (i : Nat) :
    (w.getLsbD i).toNat = w.toNat / 2 ^ i % 2 := by
  rw [← BitVec.testBit_toNat, Nat.toNat_testBit]

/-- Every F-PCK word is put together from four bytes (R63). -/
theorem exists_pckWord (w : PckWord) : ∃ r g b a : Byte, w = r ++ g ++ b ++ a := by
  refine ⟨w.extractLsb' 24 8, w.extractLsb' 16 8, w.extractLsb' 8 8, w.extractLsb' 0 8, ?_⟩
  apply BitVec.eq_of_toNat_eq
  have := w.isLt
  simp only [pckWord_toNat, BitVec.extractLsb'_toNat, Nat.shiftRight_eq_div_pow]
  omega

/-- Every F-PIX word is put together from its two bits and four bytes (R62). -/
theorem exists_pixWord (w : PixWord) :
    ∃ (last ap : Bool) (r g b a : Byte), w = pixWord last ap r g b a := by
  refine ⟨w.getLsbD 33, w.getLsbD 32, w.extractLsb' 24 8, w.extractLsb' 16 8,
    w.extractLsb' 8 8, w.extractLsb' 0 8, ?_⟩
  apply BitVec.eq_of_toNat_eq
  have := w.isLt
  simp only [pixWord_toNat, BitVec.extractLsb'_toNat, Nat.shiftRight_eq_div_pow, toNat_getLsbD]
  omega

/-- Every F-TXE word is put together from its bit and its byte (R64). -/
theorem exists_txeWord (w : TxeWord) : ∃ (blast : Bool) (b : Byte), w = txeWord blast b := by
  refine ⟨w.getLsbD 8, w.extractLsb' 0 8, ?_⟩
  apply BitVec.eq_of_toNat_eq
  have := w.isLt
  simp only [txeWord_toNat, BitVec.extractLsb'_toNat, Nat.shiftRight_eq_div_pow, toNat_getLsbD]
  omega

/-- The mask of R71 clears the last field of an F-PIX word and keeps the others. -/
theorem pixWord_and_fields (last ap : Bool) (r g b a : Byte) :
    pixWord last ap r g b a &&& 0x3FFFFFF00#34 = pixWord last ap r g b 0x00#8 := by
  have hmask : 0x3FFFFFF00#34 = BitVec.allOnes 26 ++ 0x00#8 := rfl
  rw [hmask, pixWord, BitVec.and_append, BitVec.and_allOnes, BitVec.and_zero, pixWord]

/-! ## Decoding and encoding -/

/-- Settles O2: each word is put together from the operands, and its fields are read back one by one. -/
theorem decodeOfEncodeIsId : Obligations.DecodeOfEncodeIsId := by
  intro i
  cases i with
  | qnt i => rfl
  | pck r g b a => exact decode_pckWord r g b a
  | pix4 last r g b a => exact Machine.decode_pixWord_true last r g b a
  | pix3 last r g b => exact Machine.decode_pixWord_false last r g b 0x00#8
  | txe blast byte => exact decode_txeWord blast byte

/-- Settles O3: each word is that of its fields, of which only the last one of PIX3 is not kept. -/
theorem encodeOfDecodeIsCanonical : Obligations.EncodeOfDecodeIsCanonical := by
  refine ⟨fun w => rfl, fun w => ?_, fun w => ?_, fun w => ?_⟩
  · obtain ⟨r, g, b, a, rfl⟩ := exists_pckWord w
    rw [decode_pckWord, encode]
  · obtain ⟨last, ap, r, g, b, a, rfl⟩ := exists_pixWord w
    have hap : (pixWord last ap r g b a).getLsbD 32 = ap := alphaPresent_pixWord last ap r g b a
    rw [hap]
    cases ap with
    | true => rw [Machine.decode_pixWord_true, encode, if_pos rfl]
    | false =>
      rw [Machine.decode_pixWord_false, encode, if_neg Bool.false_ne_true, pixWord_and_fields]
  · obtain ⟨blast, b, rfl⟩ := exists_txeWord w
    rw [decode_txeWord, encode]

/-- Settles O4: a row's port leaves one row for QNT, PCK and TXE and two for PIX, of which the AP bit
selects one. -/
theorem wordSelectsExactlyItsRow : Obligations.WordSelectsExactlyItsRow := by
  intro w
  cases w with
  | qnt w => simp [opTable, OpRow.selects, PortWord.port, decode, rowOf]
  | pck w => simp [opTable, OpRow.selects, PortWord.port, decode, rowOf]
  | txr w => simp [opTable, OpRow.selects, PortWord.port, decode, rowOf]
  | pix w =>
    obtain ⟨last, ap, r, g, b, a, rfl⟩ := exists_pixWord w
    have hbit := Laws.pixWord_mask last ap r g b a
    cases ap <;>
      simp [opTable, OpRow.selects, PortWord.port, PortWord.bits, hbit, rowOf]

/-- Settles O1: each word is read and decoded by evaluation. -/
theorem specWordsDecode : Obligations.SpecWordsDecode := by
  refine ⟨?_, ?_, ?_, ?_, ?_, ?_, ?_, ?_⟩ <;> decide

/-! ## Numbers read as words -/

/-- The length of a port's format names that port (log 27). -/
theorem readTableWord_width (p : Port) (n : Nat) : readTableWord p.width n = readWord p n := by
  cases p <;> rfl

/-- A number that fits is the word with its bits (D3). -/
theorem readWord_of_lt {p : Port} {n : Nat} (h : n < 2 ^ p.width) :
    ∃ w : PortWord, readWord p n = .ok w ∧ w.port = p ∧ w.bits = n := by
  cases p with
  | qnt => exact ⟨.qnt (BitVec.ofNat 8 n), if_pos h, rfl, Nat.mod_eq_of_lt h⟩
  | pck => exact ⟨.pck (BitVec.ofNat 32 n), if_pos h, rfl, Nat.mod_eq_of_lt h⟩
  | pix => exact ⟨.pix (BitVec.ofNat 34 n), if_pos h, rfl, Nat.mod_eq_of_lt h⟩
  | txr => exact ⟨.txr (BitVec.ofNat 9 n), if_pos h, rfl, Nat.mod_eq_of_lt h⟩

/-- A number with a bit above the format's length is no word of it (D3). -/
theorem readWord_of_le {p : Port} {n : Nat} (h : 2 ^ p.width ≤ n) :
    readWord p n = .error (.wordTooWide p) := if_neg (Nat.not_lt.mpr h)

/-- Settles O5: the format's length names its port, and the port reads the numbers that fit. -/
theorem numbersReadAsWords : Obligations.NumbersReadAsWords := by
  intro p n
  constructor
  · intro h
    obtain ⟨w, hw, hport, hbits⟩ := readWord_of_lt h
    exact ⟨w, hport, hbits, by rw [decodeTableWord, readTableWord_width, hw]⟩
  · intro h
    rw [decodeTableWord, readTableWord_width, readWord_of_le h]

/-! ## The ignored field of PIX3 -/

/-- A field of a shifted word. -/
theorem extract_ushiftRight {n : Nat} (w : BitVec n) (m i len : Nat) :
    (w >>> m).extractLsb' i len = w.extractLsb' (m + i) len := by
  apply BitVec.eq_of_toNat_eq
  simp only [BitVec.extractLsb'_toNat, BitVec.toNat_ushiftRight, Nat.shiftRight_add]

/-- An F-PIX word without its low byte says everything a PIX3 has (R67). -/
theorem decode_pix3_eq {w : PixWord} (h : w.getLsbD 32 = false) :
    decode (.pix w) = .pix3 ((w >>> 8).getLsbD 25) ((w >>> 8).extractLsb' 16 8)
      ((w >>> 8).extractLsb' 8 8) ((w >>> 8).extractLsb' 0 8) := by
  have hap : alphaPresent w = false := h
  simp [decode, hap, lastOf, extract_ushiftRight]

/-- Settles O19: a PIX3 is read from the word without its low byte; a PIX4 has that byte as its
alpha. -/
theorem pix3IgnoresItsLowByte : Obligations.Pix3IgnoresItsLowByte := by
  intro w w'
  constructor
  · intro h hw
    have h' : w'.getLsbD 32 = false := by
      have hbit : (w >>> 8).getLsbD 24 = (w' >>> 8).getLsbD 24 := by rw [hw]
      rw [BitVec.getLsbD_ushiftRight, BitVec.getLsbD_ushiftRight] at hbit
      exact hbit.symm.trans h
    rw [decode_pix3_eq h, decode_pix3_eq h', hw]
  · intro h
    exact ⟨_, _, _, _, if_pos h⟩

end Sys2Proof
end

section
/-! SUPPORT for the proofs below. Which transaction is served where, what a step of the core leaves to
the outside, and what the HOST's move leaves in the block. -/

namespace Sys2Proof.Machine

/-! ## The fetch, port by port -/

section
variable {s : State}

theorem fetch_qnt {w : Byte} {rest : List Byte} (hq : s.qntIn = w :: rest) :
    fetch s = some (.qnt w, { s with qntIn := rest }) := by
  simp [fetch, hq]

theorem fetch_pck {w : PckWord} {rest : List PckWord} (hq : s.qntIn = [])
    (hp : s.pckIn = w :: rest) : fetch s = some (.pck w, { s with pckIn := rest }) := by
  simp [fetch, hq, hp]

theorem fetch_txr {w : TxeWord} {rest : List TxeWord} (hq : s.qntIn = []) (hp : s.pckIn = [])
    (ht : s.txrIn = w :: rest) : fetch s = some (.txr w, { s with txrIn := rest }) := by
  simp [fetch, hq, hp, ht]

theorem fetch_pix {w : PixWord} (hq : s.qntIn = []) (hp : s.pckIn = []) (ht : s.txrIn = [])
    (he : s.ended = false) (hw : s.pixin[s.k]? = some w) : fetch s = some (.pix w, s) := by
  simp [fetch, hq, hp, ht, he, State.memReadPixin, hw]

/-- Nothing is offered once the frame has ended or has no transaction at the position (R119). -/
theorem fetch_none (hq : s.qntIn = []) (hp : s.pckIn = []) (ht : s.txrIn = [])
    (hend : s.ended = true ∨ s.pixin[s.k]? = none) : fetch s = none := by
  obtain he | hw := hend
  · simp [fetch, hq, hp, ht, he]
  · simp [fetch, hq, hp, ht, State.memReadPixin, hw]

/-- Where no transaction is fetched, none is offered at any port. -/
theorem ports_of_fetch_none (h : fetch s = none) :
    s.qntIn = [] ∧ s.pckIn = [] ∧ s.txrIn = [] ∧ (s.ended = true ∨ s.pixin[s.k]? = none) := by
  unfold fetch at h
  split at h
  · cases h
  · cases h
  · cases h
  · next hq hp ht =>
    refine ⟨hq, hp, ht, ?_⟩
    split at h
    · next he => exact .inl he
    · split at h
      · cases h
      · next hw => exact .inr hw

/-- A fetch takes words from the ports and changes nothing else. -/
theorem fetch_frame {s' : State} {w : PortWord} (h : fetch s = some (w, s')) :
    s' = { s with qntIn := s'.qntIn, pckIn := s'.pckIn, txrIn := s'.txrIn } := by
  obtain ⟨v, rest, -, -, rfl⟩ | ⟨v, rest, -, -, -, rfl⟩ | ⟨v, rest, -, -, -, -, rfl⟩ |
    ⟨v, -, -, -, -, -, -, rfl⟩ := fetch_cases h
  · rfl
  · rfl
  · rfl
  · rfl

end

/-! ## The outside of the block -/

/-- The two states agree on all that no operation of the core writes: the parameters, the reset input,
the words offered at QNT and PCK, PIXIN, and what the HOST holds. -/
structure SameOutside (s t : State) : Prop where
  params : t.params = s.params
  resetIn : t.resetIn = s.resetIn
  qntIn : t.qntIn = s.qntIn
  pckIn : t.pckIn = s.pckIn
  pixin : t.pixin = s.pixin
  jobs : t.jobs = s.jobs
  active : t.active = s.active
  reports : t.reports = s.reports

theorem SameOutside.trans {s t u : State} (h : SameOutside s t) (h' : SameOutside t u) :
    SameOutside s u :=
  ⟨h'.params.trans h.params, h'.resetIn.trans h.resetIn, h'.qntIn.trans h.qntIn,
    h'.pckIn.trans h.pckIn, h'.pixin.trans h.pixin, h'.jobs.trans h.jobs,
    h'.active.trans h.active, h'.reports.trans h.reports⟩

theorem sameOutside_exec {i : Instr} {s t : State} (h : exec i s = .next t) : SameOutside s t := by
  obtain ⟨v, -, rfl⟩ | ⟨r, g, b, a, -, rfl⟩ | ⟨last, r, g, b, a, -, rfl⟩ | ⟨blast, b, -, -, rfl⟩ :=
    exec_cases h
  · exact ⟨rfl, rfl, rfl, rfl, rfl, rfl, rfl, rfl⟩
  · exact ⟨rfl, rfl, rfl, rfl, rfl, rfl, rfl, rfl⟩
  · exact ⟨rfl, rfl, rfl, rfl, rfl, rfl, rfl, rfl⟩
  · exact ⟨rfl, rfl, rfl, rfl, rfl, rfl, rfl, rfl⟩

/-- OUT is written at the position or not at all (R41, R125). -/
theorem out_exec {i : Instr} {s t : State} (h : exec i s = .next t) :
    t.out = s.out ∨ ∃ v, t.out = Memory.write s.out s.k v := by
  obtain ⟨v, -, rfl⟩ | ⟨r, g, b, a, -, rfl⟩ | ⟨last, r, g, b, a, -, rfl⟩ | ⟨blast, b, -, -, rfl⟩ :=
    exec_cases h
  · exact .inl rfl
  · exact .inl rfl
  · exact .inr ⟨_, rfl⟩
  · exact .inl rfl

/-! ## The HOST's move -/

/-- Whatever the HOST does, it leaves the block as a run starts, and the parameters alone (R172, R185,
R186). -/
theorem hostMove_clears {s t : State} (h : hostMove s = .next t) :
    t.out = [] ∧ t.k = 0 ∧ t.j = 0 ∧ t.ended = false ∧ t.txt = [] ∧ t.txrIn = [] ∧
      t.params = s.params := by
  obtain ⟨inv, -, -, rfl⟩ | ⟨inv, rest, cls, -, -, -, rfl⟩ | ⟨inv, rest, F, -, -, -, -, rfl⟩ :=
    hostMove_cases h
  · exact ⟨rfl, rfl, rfl, rfl, rfl, rfl, rfl⟩
  · exact ⟨rfl, rfl, rfl, rfl, rfl, rfl, rfl⟩
  · exact ⟨rfl, rfl, rfl, rfl, rfl, rfl, rfl⟩

end Sys2Proof.Machine
end

section
/-! Proofs of the statements about a run: what every step keeps, and what the invariant says of OUT and
TXT (spec 20_memory.md, 42_pixel_pipeline.md section 3). -/

namespace Sys2Proof.Machine

/-! ## The parts of the invariant -/

theorem OutInv.length_le {s : State} (h : OutInv s) : s.out.length ≤ s.pixin.length := h.1

/-- OUT is the image of the consumed transactions (R41). -/
theorem OutInv.cells {s : State} (h : OutInv s) :
    s.out = Memory.cellsFrom 0 (s.consumed.map wordByte) := h.2.1

/-- Once the frame has ended the consumed transactions are framed (R119). -/
theorem OutInv.framed {s : State} (h : OutInv s) (he : s.ended = true) :
    s.k = 0 ∧ frameWf s.consumed = true := h.2.2.1 he

/-- While the frame lasts the position is the length of OUT, and no LAST has been consumed (R22). -/
theorem OutInv.running {s : State} (h : OutInv s) (he : s.ended = false) :
    s.k = s.out.length ∧ ∀ w ∈ s.consumed, lastOf w = false := h.2.2.2 he

/-- With TXR some first transactions have been rendered and the others wait (R42, R53). -/
theorem TextInv.rendered {s : State} (h : TextInv s) (ht : s.params.hasTxr = true) :
    ∃ m, m ≤ s.out.length ∧ s.txrIn = (s.consumed.drop m).map feedWord ∧
      s.txt = emitAll s.params 0 (s.consumed.take m) ∧
      s.j = if s.ended = true ∧ m = s.out.length then 0 else m := h.1 ht

/-- Without TXR there is no text (R42). -/
theorem TextInv.absent {s : State} (h : TextInv s) (ht : s.params.hasTxr = false) :
    s.txrIn = [] ∧ s.txt = [] ∧ s.j = 0 := h.2 ht

/-! ## What keeps the invariant -/

/-- Under the invariant a word waits at TXR only on a block that has TXR. -/
theorem hasTxr_of_txrIn_ne_nil {s : State} (h : TextInv s) (hne : s.txrIn ≠ []) :
    s.params.hasTxr = true := by
  by_contra hno
  exact hne (h.absent (by simpa using hno)).1

/-- The word at the head of TXR's queue is that of the first consumed transaction not yet rendered,
whose index is TXR's position (R25, R53). -/
theorem txrIn_head {s : State} (hinv : RunInv s) {v : TxeWord} {rest : List TxeWord}
    (hv : s.txrIn = v :: rest) :
    ∃ w, s.consumed[s.j]? = some w ∧ v = feedWord w ∧
      rest = (s.consumed.drop (s.j + 1)).map feedWord ∧
      s.txt = emitAll s.params 0 (s.consumed.take s.j) := by
  obtain ⟨hout, htext⟩ := hinv
  obtain ⟨m, -, hq, htxt, hj⟩ := htext.rendered (hasTxr_of_txrIn_ne_nil htext (by simp [hv]))
  have hm : m < s.consumed.length := by
    by_contra hge
    rw [List.drop_eq_nil_of_le (by omega), hv] at hq
    cases hq
  have hjm : s.j = m := by
    rw [hj, if_neg (by rw [hout.length_consumed] at hm; omega)]
  rw [hv, List.drop_eq_getElem_cons hm, List.map_cons, List.cons.injEq] at hq
  rw [hjm]
  exact ⟨s.consumed[m], List.getElem?_eq_getElem hm, hq.1, hq.2, htxt⟩

/-- The TXE of the word at the head of TXR's queue keeps the invariant. -/
theorem runInv_txr {s t : State} (hinv : RunInv s) {v : TxeWord} {rest : List TxeWord}
    (hv : s.txrIn = v :: rest) (h : exec (decode (.txr v)) { s with txrIn := rest } = .next t) :
    RunInv t := by
  have htxr := hasTxr_of_txrIn_ne_nil hinv.2 (by simp [hv])
  obtain ⟨w, hw, rfl, hrest, htxt⟩ := txrIn_head hinv hv
  have hlen := hinv.1.length_consumed
  have hj : s.j + 1 ≤ s.out.length := hlen ▸ (List.getElem?_eq_some_iff.mp hw).1
  rw [decode_feedWord, exec_txe (s := { s with txrIn := rest }) htxr] at h
  cases h
  refine ⟨hinv.1, fun _ => ⟨s.j + 1, hj, hrest, ?_, ?_⟩, fun hno => ?_⟩
  · change s.txt ++ _ = emitAll s.params 0 (s.consumed.take (s.j + 1))
    rw [emitAll_take_succ s.params hw, htxt]
  · change (if lastOf w then 0 else s.j + 1) =
      if s.ended = true ∧ s.j + 1 = s.out.length then 0 else s.j + 1
    have hlast : lastOf w = true ↔ s.ended = true ∧ s.j + 1 = s.out.length := by
      cases he : s.ended with
      | true => simpa [hlen] using lastOf_iff_final (hinv.1.framed he).2 hw
      | false => simpa using (hinv.1.running he).2 w (List.mem_of_getElem? hw)
    simp only [hlast]
  · exact absurd (htxr.symm.trans hno) (by decide)

section
variable {s : State} (hout : OutInv s) (he : s.ended = false) {w : PixWord}
include hout he

/-- PIX puts the byte of its transaction at the end of OUT (R125). -/
theorem out_putPixel : (s.putPixel (wordByte w) (lastOf w)).out =
    Memory.cellsFrom 0 ((s.consumed ++ [w]).map wordByte) := by
  have hend := Memory.write_cellsFrom_end 0 (s.consumed.map wordByte) (wordByte w)
  rw [List.length_map, hout.length_consumed, Nat.zero_add, ← hout.cells] at hend
  rw [State.putPixel_out, (hout.running he).1, hend, List.map_append, List.map_singleton]

theorem length_out_putPixel :
    (s.putPixel (wordByte w) (lastOf w)).out.length = s.out.length + 1 := by
  rw [out_putPixel hout he, Memory.length_cellsFrom, List.length_map, List.length_append,
    hout.length_consumed, List.length_singleton]

variable (hw : s.pixin[s.k]? = some w)
include hw

/-- PIX consumes the transaction at its position, the next of the frame. -/
theorem consumed_putPixel :
    (s.putPixel (wordByte w) (lastOf w)).consumed = s.consumed ++ [w] := by
  rw [(hout.running he).1] at hw
  rw [State.consumed, length_out_putPixel hout he, State.putPixel_pixin, List.take_add_one, hw]
  rfl

theorem outInv_putPixel : OutInv (s.putPixel (wordByte w) (lastOf w)) := by
  obtain ⟨hk, hnolast⟩ := hout.running he
  have hcells := out_putPixel hout he (w := w)
  have hcons := consumed_putPixel hout he hw
  have hlen := length_out_putPixel hout he (w := w)
  have hlt : s.k < s.pixin.length := (List.getElem?_eq_some_iff.mp hw).1
  refine ⟨by rw [hlen, ← hk]; exact hlt, by rw [hcells, hcons], fun hl => ⟨if_pos hl, ?_⟩,
    fun hl => ⟨?_, ?_⟩⟩
  · rw [hcons]
    exact (frameWf_iff _).mpr ⟨s.consumed, w, rfl, hl, hnolast⟩
  · rw [State.putPixel_ended] at hl
    rw [hlen, State.putPixel_k, hl, hk]
    rfl
  · rw [hcons]
    intro v hv
    obtain hv | hv := List.mem_append.mp hv
    · exact hnolast v hv
    · rw [List.mem_singleton.mp hv]
      exact hl

/-- PIX serves a transaction only when TXR has caught up, and then its own waits alone at TXR. -/
theorem textInv_putPixel (htext : TextInv s) (htxr : s.txrIn = []) :
    TextInv (s.putPixel (wordByte w) (lastOf w)) := by
  have hlen := hout.length_consumed
  have hcons := consumed_putPixel hout he hw
  have houtlen := length_out_putPixel hout he (w := w)
  constructor
  · intro ht
    rw [State.putPixel_params] at ht
    obtain ⟨m, hm, hq, htxt, hj⟩ := htext.rendered ht
    have hmlen : m = s.consumed.length := by
      rw [htxr, eq_comm, List.map_eq_nil_iff, List.drop_eq_nil_iff] at hq
      omega
    refine ⟨m, by omega, ?_, ?_, ?_⟩
    · rw [hcons, hmlen, List.drop_left, State.putPixel_txrIn, if_pos ht, htxr]
      rfl
    · rw [hcons, hmlen, List.take_left, State.putPixel_txt, htxt, hmlen, List.take_length]
      rfl
    · rw [if_neg (by omega), State.putPixel_j, hj, if_neg (by simp [he])]
  · intro ht
    rw [State.putPixel_params] at ht
    obtain ⟨-, htxt, hj⟩ := htext.absent ht
    exact ⟨by simp [ht, htxr], htxt, hj⟩

end

/-- Settles O25: QNT, PCK and the ports they are served from are not in the invariant, TXR and PIX keep
it, and the other steps clear the block. -/
theorem stepKeepsTheRunInvariant : Obligations.StepKeepsTheRunInvariant := by
  intro s t hinv h
  obtain ⟨-, rfl⟩ | ⟨w, s', -, hf, hx⟩ | ⟨-, -, hm⟩ := step_cases h
  · exact runInv_of_cleared rfl rfl rfl rfl rfl rfl
  · obtain ⟨v, rest, rfl, -, rfl⟩ | ⟨v, rest, rfl, -, -, rfl⟩ | ⟨v, rest, rfl, -, -, hv, rfl⟩ |
      ⟨v, rfl, -, -, htxr, he, hv, rfl⟩ := fetch_cases hf
    · cases hx
      exact runInv_congr hinv rfl rfl rfl rfl rfl rfl rfl rfl
    · cases hx
      exact runInv_congr hinv rfl rfl rfl rfl rfl rfl rfl rfl
    · exact runInv_txr hinv hv hx
    · rw [exec_decode_pix] at hx
      cases hx
      exact ⟨outInv_putPixel hinv.1 he hv, textInv_putPixel hinv.1 he hv hinv.2 htxr⟩
  · obtain ⟨hout, hk, hj, he, htxt, htxr, -⟩ := hostMove_clears hm
    exact runInv_of_cleared hout hk hj he htxt htxr

end Sys2Proof.Machine
end

section
/-! Proofs of the statements about the levels and the ranks, and about the bytes PCK and PIX make of
them (spec 40_quantizer.md, 41_packer.md, 42_pixel_pipeline.md section 4). -/

namespace Sys2Proof.Machine

/-! ## Ranks -/

/-- The column of codes of R81's table, by the unsigned value of the intensity. -/
theorem rank_eq_table (i : Byte) :
    rank i = if i.toNat ≤ 42 then 0#2
      else if i.toNat ≤ 128 then 1#2
      else if i.toNat ≤ 212 then 2#2
      else 3#2 := rfl

/-- The comparators compare the rank with 1, 2 and 3 (R82). -/
theorem comparators_eq_rank (i : Byte) :
    comparators i =
      (decide (1 ≤ (rank i).toNat), decide (2 ≤ (rank i).toNat), decide (3 ≤ (rank i).toNat)) := by
  have lt_t0 : t0 < i ↔ ¬i.toNat ≤ 42 := Nat.not_le.symm
  have lt_t1 : t1 < i ↔ ¬i.toNat ≤ 128 := Nat.not_le.symm
  have lt_t2 : t2 < i ↔ ¬i.toNat ≤ 212 := Nat.not_le.symm
  simp only [comparators, lt_t0, lt_t1, lt_t2, rank_eq_table, Prod.mk.injEq]
  split_ifs <;> simp <;> omega

/-- A greater intensity has no smaller rank. -/
theorem rank_mono {i i' : Byte} (h : i ≤ i') : rank i ≤ rank i' := by
  have h : i.toNat ≤ i'.toNat := h
  rw [rank_eq_table, rank_eq_table]
  split_ifs <;> simp <;> omega

/-- The four levels, as numbers (R66). -/
theorem isLevel_iff (l : Byte) :
    isLevel l = true ↔ l = 0#8 ∨ l = 85#8 ∨ l = 170#8 ∨ l = 255#8 := by
  simp [isLevel, level0, level1, level2, level3, or_assoc]

theorem isLevel_quantize (i : Byte) : isLevel (quantize i) = true := by
  rw [quantize_eq_expand, isLevel_expand]

/-- A level is its own level. -/
theorem quantize_of_isLevel {l : Byte} (h : isLevel l = true) : quantize l = l := by
  rw [eq_expand_of_isLevel h, quantize_expand]

/-! ## Expanded codes -/

/-- Each 2-bit slice of an expanded code is the code (R84). -/
theorem slices_expand (c : Code) :
    (expand c).extractLsb' 6 2 = c ∧ (expand c).extractLsb' 4 2 = c ∧
      (expand c).extractLsb' 2 2 = c ∧ (expand c).extractLsb' 0 2 = c := by
  revert c; decide

theorem toNat_expand (c : Code) : (expand c).toNat = 85 * c.toNat := by revert c; decide

theorem expand_mono {c c' : Code} (h : c ≤ c') : expand c ≤ expand c' := by
  revert c c'; decide

/-- The encoder, as a sum and as bit equations, takes the comparators of a rank to the rank; the
comparators are a thermometer code (R82, R83). -/
theorem encoder_of_rank (c : Code) :
    let c0 := decide (1 ≤ c.toNat)
    let c1 := decide (2 ≤ c.toNat)
    let c2 := decide (3 ≤ c.toNat)
    (c2 = true → c1 = true) ∧ (c1 = true → c0 = true) ∧
      encoderSum c0 c1 c2 = c ∧ encoderBits c0 c1 c2 = c := by
  revert c; decide

/-! ## QNT -/

/-- Settles O7: the offered code is the rank, and the offered level its expansion. -/
theorem qntGivesCode : Obligations.QntGivesCode := by
  intro i s
  refine ⟨rank i, rank_eq_table i, ?_⟩
  rw [exec_qnt, quantize_eq_expand]
  rfl

/-- Settles O8: the offered transaction is made of the intensity alone, and a level is quantized to
itself. -/
theorem quantizeIsTotalAndPure : Obligations.QuantizeIsTotalAndPure := by
  constructor
  · intro i s s'
    exact ⟨⟨quantize i, rank i⟩, _, _, exec_qnt i s, exec_qnt i s', rfl, rfl,
      (isLevel_iff _).mp (isLevel_quantize i)⟩
  · intro l h
    exact ⟨l, quantize_of_isLevel h⟩

/-- Settles O9: the comparators are those of the rank, and the level is the rank expanded. -/
theorem comparatorsAndEncoderGiveTheRank : Obligations.ComparatorsAndEncoderGiveTheRank := by
  intro i
  obtain ⟨hslice6, hslice4, hslice2, hslice0⟩ := slices_expand (rank i)
  obtain ⟨h21, h10, hsum, hbits⟩ := encoder_of_rank (rank i)
  rw [comparators_eq_rank, quantize_eq_expand]
  exact ⟨h21, h10, hsum, hbits, rfl, toNat_expand (rank i), hslice0, hslice2, hslice4, hslice6⟩

/-- Settles O10: a level is quantized to itself, and both the rank and its expansion are monotone. -/
theorem quantizeIsIdempotentAndMonotone : Obligations.QuantizeIsIdempotentAndMonotone := by
  constructor
  · intro i
    exact quantize_of_isLevel (isLevel_quantize i)
  · intro i i' h
    rw [quantize_eq_expand, quantize_eq_expand]
    exact ⟨expand_mono (rank_mono h), rank_mono h⟩

/-- Settles O11: in each row of the table the distance to the row's level is compared with that to each
of the four levels; 128 is nearer to 170 than to the level 85 of its row. -/
theorem quantizeIsNearestBut128 : Obligations.QuantizeIsNearestBut128 := by
  refine ⟨fun i l hi hl => ?_, by decide, by decide, by decide, by decide⟩
  have hi : i.toNat ≠ 128 := fun h => hi (BitVec.eq_of_toNat_eq h)
  have hbound := i.isLt
  rw [quantize_eq_table]
  obtain rfl | rfl | rfl | rfl := (isLevel_iff l).mp hl <;> split_ifs <;> simp <;> omega

/-! ## PCK -/

theorem inContract_pck_iff {r g b a : Byte} :
    Instr.inContract (.pck r g b a) = true ↔
      isLevel r = true ∧ isLevel g = true ∧ isLevel b = true ∧ isLevel a = true := by
  simp [Instr.inContract, and_assoc]

/-- A byte is its four lanes in the order A, R, G, B (R65). -/
theorem lanes_append (p : Byte) :
    p.extractLsb' 6 2 ++ p.extractLsb' 4 2 ++ p.extractLsb' 2 2 ++ p.extractLsb' 0 2 = p := by
  revert p; decide

/-- A level is the expansion of each of its lanes. -/
theorem expand_lanes_of_isLevel {l : Byte} (h : isLevel l = true) :
    l = expand (l.extractLsb' 6 2) ∧ l = expand (l.extractLsb' 4 2) ∧
      l = expand (l.extractLsb' 2 2) ∧ l = expand (l.extractLsb' 0 2) := by
  obtain ⟨h6, h4, h2, h0⟩ := slices_expand (codeOf l)
  rw [← eq_expand_of_isLevel h] at h6 h4 h2 h0
  rw [h6, h4, h2, h0]
  exact ⟨eq_expand_of_isLevel h, eq_expand_of_isLevel h, eq_expand_of_isLevel h,
    eq_expand_of_isLevel h⟩

/-- Settles O13: the lanes of a pack hold of every four bytes. -/
theorem pckIsTotalLaneByLane : Obligations.PckIsTotalLaneByLane := by
  intro r g b a s
  exact ⟨pack r g b a, exec_pck r g b a s, lanes_pack r g b a⟩

/-- Settles O14: levels are expanded codes, whose pack is the codes side by side. -/
theorem packOfLevelsIsTheirCodes : Obligations.PackOfLevelsIsTheirCodes := by
  intro r g b a h
  obtain ⟨hr, hg, hb, ha⟩ := inContract_pck_iff.mp h
  have hpack := pack_expand (codeOf r) (codeOf g) (codeOf b) (codeOf a)
  rwa [← eq_expand_of_isLevel hr, ← eq_expand_of_isLevel hg, ← eq_expand_of_isLevel hb,
    ← eq_expand_of_isLevel ha] at hpack

/-- Settles O15: the quadruple is the expanded lanes of the byte; any other has the same lanes, and a
level is the expansion of each of its lanes. -/
theorem packIsBijectiveOnLevels : Obligations.PackIsBijectiveOnLevels := by
  intro p
  refine ⟨expand (p.extractLsb' 4 2), expand (p.extractLsb' 2 2), expand (p.extractLsb' 0 2),
    expand (p.extractLsb' 6 2),
    inContract_pck_iff.mpr
      ⟨isLevel_expand _, isLevel_expand _, isLevel_expand _, isLevel_expand _⟩,
    by rw [pack_expand, lanes_append], toNat_expand _, toNat_expand _, toNat_expand _,
    toNat_expand _, fun r g b a h hp => ?_⟩
  obtain ⟨hr, hg, hb, ha⟩ := inContract_pck_iff.mp h
  obtain ⟨lane_a, lane_r, lane_g, lane_b⟩ := lanes_pack r g b a
  rw [← hp, lane_a, lane_r, lane_g, lane_b]
  obtain ⟨-, hr4, -, -⟩ := expand_lanes_of_isLevel hr
  obtain ⟨-, -, hg2, -⟩ := expand_lanes_of_isLevel hg
  obtain ⟨-, -, -, hb0⟩ := expand_lanes_of_isLevel hb
  obtain ⟨ha6, -, -, -⟩ := expand_lanes_of_isLevel ha
  exact ⟨hr4, hg2, hb0, ha6⟩

/-! ## PIX -/

/-- The byte of a pixel is the ranks of its channels in the order A, R, G, B (R117). -/
theorem pixel_eq_ranks (r g b a : Byte) :
    pixel r g b a = rank a ++ rank r ++ rank g ++ rank b := by
  simp only [pixel, quantize_eq_expand, pack_expand]

/-- The ranks of expanded codes are the codes. -/
@[simp] theorem rank_expand (c : Code) : rank (expand c) = c := by revert c; decide

/-- The pixel whose channels are the expanded lanes of a byte has that byte. -/
theorem pixel_expand_lanes (v : Byte) :
    pixel (expand (v.extractLsb' 4 2)) (expand (v.extractLsb' 2 2)) (expand (v.extractLsb' 0 2))
      (expand (v.extractLsb' 6 2)) = v := by
  simp only [pixel_eq_ranks, rank_expand, lanes_append]

/-- Four codes side by side, as a number. -/
theorem toNat_codes (ca cr cg cb : Code) :
    (ca ++ cr ++ cg ++ cb).toNat = 64 * ca.toNat + 16 * cr.toNat + 4 * cg.toNat + cb.toNat := by
  revert ca cr cg cb; decide

/-- PIX offers its byte and LAST, ends the frame on LAST, and hands both to TXR where there is one. -/
theorem putPixel_ports (v : Byte) (last : Bool) (s : State) :
    (s.putPixel v last).pixOut = some ⟨v, last⟩ ∧ (s.putPixel v last).ended = last ∧
      (s.params.hasTxr = false → (s.putPixel v last).txrIn = s.txrIn) ∧
      (s.params.hasTxr = true → ∃ w : TxeWord,
        (s.putPixel v last).txrIn = s.txrIn ++ [w] ∧ decode (.txr w) = .txe last v) := by
  refine ⟨s.putPixel_pixOut v last, s.putPixel_ended v last, fun h => ?_,
    fun h => ⟨txeWord last v, ?_, decode_txeWord last v⟩⟩
  · simp [h]
  · simp [h]

/-- Settles O18: PIX4 and PIX3 are both the shared pixel step. -/
theorem pixEndsTheFrameAndFeedsTxr : Obligations.PixEndsTheFrameAndFeedsTxr := by
  rintro last r g b a s i (rfl | rfl)
  · exact ⟨pixel r g b a, _, exec_pix4 last r g b a s, putPixel_ports _ _ _⟩
  · exact ⟨pixel r g b aDefault, _, exec_pix3 last r g b s, putPixel_ports _ _ _⟩

/-- Settles O20: each lane of the byte is the same lane of a quantized channel, which is the rank. -/
theorem alphaIsKept : Obligations.AlphaIsKept := by
  intro last r g b a s
  obtain ⟨lane_a, lane_r, lane_g, lane_b⟩ :=
    lanes_pack (quantize r) (quantize g) (quantize b) (quantize a)
  simp only [quantize_eq_expand, slices_expand] at lane_a lane_r lane_g lane_b
  refine ⟨pixel r g b a, _, exec_pix4 last r g b a s, rfl, ?_⟩
  rw [pixel]
  simp only [quantize_eq_expand]
  exact ⟨lane_a, lane_r, lane_g, lane_b⟩

/-- Settles O21: the byte is the four ranks side by side, and levels are quantized to themselves. -/
theorem pixelHasItsClosedForm : Obligations.PixelHasItsClosedForm := by
  intro r g b a
  constructor
  · rw [pixel_eq_ranks, toNat_codes]
  · intro h
    obtain ⟨hr, hg, hb, ha⟩ := inContract_pck_iff.mp h
    rw [pixel, quantize_of_isLevel hr, quantize_of_isLevel hg, quantize_of_isLevel hb,
      quantize_of_isLevel ha]

/-- Settles O22: the expanded lanes of a byte are a pixel with that byte; without alpha the A lane is 3,
and a byte from 0xC0 on has that A lane. -/
theorem pixRangesOfBytes : Obligations.PixRangesOfBytes := by
  refine ⟨fun v => ⟨_, _, _, _, pixel_expand_lanes v⟩, fun v => ⟨?_, fun h => ?_⟩⟩
  · rintro ⟨r, g, b, rfl⟩
    have hrank : (rank aDefault).toNat = 3 := by decide
    rw [px, pixel_eq_ranks, toNat_codes, hrank]
    omega
  · have hlane : v.extractLsb' 6 2 = 3#2 := by
      apply BitVec.eq_of_toNat_eq
      have := v.isLt
      simp only [BitVec.extractLsb'_toNat, Nat.shiftRight_eq_div_pow, BitVec.toNat_ofNat]
      omega
    have hv := pixel_expand_lanes v
    rw [hlane] at hv
    exact ⟨_, _, _, hv⟩

end Sys2Proof.Machine
end

section
/-! Proofs of the statements about TXR (spec 43_text_renderer.md): the text of a byte sequence is that of
its first byte followed by that of the others, one position further on. -/

namespace Sys2Proof.Machine

/-! ## The text from a position on -/

/-- What TXR writes of the last bytes of a sequence, the first of them at position `j`: the opening
text if `j` is 0, their pieces, and the closing text (R141, R142). -/
def textFrom (p : Params) (j : Nat) (bs : List Byte) : Text :=
  (if j = 0 then p.txtPrefix else []) ++
    (bs.mapIdx fun i b => piece p (j + bs.length) (j + i) b).flatten ++ p.txtSuffix

/-- render is the text from position 0 on (R141). -/
theorem render_eq_textFrom (p : Params) {bs : List Byte} (h : bs ≠ []) :
    render p bs = some (textFrom p 0 bs) := by
  simp [render, h, textFrom]

/-- The sequences that have a text, and their text. -/
theorem render_eq_some {p : Params} {bs : List Byte} {u : Text} (h : render p bs = some u) :
    bs ≠ [] ∧ u = textFrom p 0 bs := by
  have hne : bs ≠ [] := by
    rintro rfl
    simp [render] at h
  rw [render_eq_textFrom p hne] at h
  exact ⟨hne, (Option.some.inj h).symm⟩

/-- The text of the final byte is what its TXE appends (R142). -/
theorem textFrom_singleton (p : Params) (j : Nat) (b : Byte) :
    textFrom p j [b] = emission p j true b := by
  simp [textFrom, emission, piece]

/-- The text of a byte that others follow is what its TXE appends, then their text (R142). -/
theorem textFrom_cons_cons (p : Params) (j : Nat) (b c : Byte) (bs : List Byte) :
    textFrom p j (b :: c :: bs) = emission p j false b ++ textFrom p (j + 1) (c :: bs) := by
  rw [textFrom, pieces_cons, textFrom]
  simp [emission, piece]

/-! ## TXE -/

/-- Settles O30: the appended text is the emission, with the constants of R138 and R146 written out. -/
theorem txeAppendsOneEntry : Obligations.TxeAppendsOneEntry := by
  intro blast b s h
  refine ⟨emission s.params s.j blast b, ?_, exec_txe h blast b⟩
  rw [emission, entry, ← List.append_assoc]
  rfl

/-- Settles O31: TXE reads the parameter first. -/
theorem txeNeedsTxr : Obligations.TxeNeedsTxr := by
  intro blast b s h
  simp [exec, execTxe, h]

/-- A lowercase digit, by its place in the list of the digits (R72). -/
theorem hexDigit_eq (d : BitVec 4) :
    [0x30#8, 0x31#8, 0x32#8, 0x33#8, 0x34#8, 0x35#8, 0x36#8, 0x37#8, 0x38#8, 0x39#8, 0x61#8,
      0x62#8, 0x63#8, 0x64#8, 0x65#8, 0x66#8][d.toNat]? = some (hexDigit d) := by
  revert d; decide

/-- Settles O32: the digits are those of the upper and the lower half of the byte. -/
theorem entryIsLowercaseHex : Obligations.EntryIsLowercaseHex := by
  intro b
  have hupper : (b.extractLsb' 4 4).toNat = b.toNat / 16 := by
    have := b.isLt
    rw [BitVec.extractLsb'_toNat, Nat.shiftRight_eq_div_pow]
    omega
  have hlower : (b.extractLsb' 0 4).toNat = b.toNat % 16 := BitVec.extractLsb'_toNat 0 4 b
  refine ⟨hexDigit (b.extractLsb' 4 4), hexDigit (b.extractLsb' 0 4), rfl, rfl, ?_, ?_⟩
  · rw [← hupper, hexDigit_eq]
  · rw [← hlower, hexDigit_eq]

/-- The TXE operations of a nonempty byte sequence append its text from the position on and end at
position 0, and but for TXR's port they change nothing else. -/
theorem execAll_txeFrame (bs : List Byte) (hne : bs ≠ []) (s : State)
    (h : s.params.hasTxr = true) :
    ∃ t, execAll (txeFrame bs) s = .next t ∧
      t = { s with txt := s.txt ++ textFrom s.params s.j bs, txrOut := t.txrOut, j := 0 } := by
  induction bs generalizing s with
  | nil => exact absurd rfl hne
  | cons b bs ih =>
    cases bs with
    | nil =>
      rw [textFrom_singleton, txeFrame, execAll, exec_txe h]
      exact ⟨_, rfl, rfl⟩
    | cons c bs =>
      rw [textFrom_cons_cons, txeFrame, execAll, exec_txe h]
      obtain ⟨t, hrun, ht⟩ :=
        ih (by simp) ((s.emit (emission s.params s.j false b)).advanceJ false) h
      refine ⟨t, hrun, ?_⟩
      rw [ht]
      simp [State.emit, State.advanceJ]

/-- Settles O33: from position 0 the text is render's. -/
theorem txeFrameWritesRender : Obligations.TxeFrameWritesRender := by
  intro s bs hne h hj
  obtain ⟨t, hrun, ht⟩ := execAll_txeFrame bs hne s h
  rw [hj] at ht
  exact ⟨textFrom s.params 0 bs, t, render_eq_textFrom s.params hne, hrun, ht⟩

/-! ## Parsing back -/

/-- What R140 asks of the strings. -/
theorem Params.textOk_iff {p : Params} : p.textOk = true ↔
    isAscii p.txtPrefix = true ∧ isAscii p.txtSuffix = true ∧ isAscii p.txtBrk = true ∧
      has0x p.txtPrefix = false ∧ has0x p.txtSuffix = false ∧ has0x p.txtBrk = false ∧
      p.txtSuffix.head? ≠ some chX ∧ beginsWithNewline p.txtBrk = true := by
  simp [Params.textOk, and_assoc]

/-- A text that begins with a newline does not begin with an x, whatever follows. -/
theorem head?_append_of_newline {t : Text} (h : beginsWithNewline t = true) (u : Text) :
    (t ++ u).head? ≠ some chX := by
  match t, h with
  | [c], h =>
    have hc : c = chLF := by simpa [beginsWithNewline] using h
    simp [hc, chLF, chX]
  | c :: d :: t, h =>
    simp only [beginsWithNewline, Bool.or_eq_true, Bool.and_eq_true, beq_iff_eq] at h
    obtain rfl | ⟨rfl, -⟩ := h
    · simp [chLF, chX]
    · simp [chCR, chX]

section
variable {p : Params} (hp : p.textOk = true)
include hp

/-- A row break or the 0 of an entry is no x. -/
theorem head?_rowBreak_append (j : Nat) (b : Byte) (u : Text) :
    (rowBreak p j ++ (entry b ++ u)).head? ≠ some chX := by
  obtain ⟨-, -, -, -, -, -, -, hnewline⟩ := Params.textOk_iff.mp hp
  rw [rowBreak]
  split
  · exact head?_append_of_newline hnewline _
  · simp [entry, chZero, chX]

theorem has0x_rowBreak (j : Nat) : has0x (rowBreak p j) = false := by
  obtain ⟨-, -, -, -, -, hbrk, -, -⟩ := Params.textOk_iff.mp hp
  rw [rowBreak]
  split
  · exact hbrk
  · rfl

/-- What a TXE appends, not followed by an x, parses to its byte. -/
theorem parse_emission_append (j : Nat) (blast : Bool) (b : Byte) {t : Text}
    (ht : ((if blast then p.txtSuffix else separator) ++ t).head? ≠ some chX)
    (hparse : parse ((if blast then p.txtSuffix else separator) ++ t) = parse t) :
    parse (emission p j blast b ++ t) = (parse t).map (b :: ·) := by
  obtain ⟨-, -, -, hprefix, -, -, -, -⟩ := Params.textOk_iff.mp hp
  have hstart : has0x (if j = 0 then p.txtPrefix else []) = false := by
    split
    · exact hprefix
    · rfl
  simp only [emission, List.append_assoc]
  rw [parse_append_of_no0x hstart (head?_rowBreak_append hp j b _),
    parse_append_of_no0x (has0x_rowBreak hp j) (by simp [entry, chZero, chX]),
    parse_entry_append b ht, hparse]

/-- The text of a byte that is not the first begins with a row break or an entry. -/
theorem head?_textFrom (j : Nat) (b : Byte) (bs : List Byte) :
    (textFrom p (j + 1) (b :: bs)).head? ≠ some chX := by
  rw [textFrom, pieces_cons, piece]
  simp only [Nat.succ_ne_zero, if_false, List.nil_append,
    List.append_assoc]
  exact head?_rowBreak_append hp (j + 1) b _

/-- The text from any position on parses to its bytes. -/
theorem parse_textFrom (bs : List Byte) (hne : bs ≠ []) (j : Nat) :
    parse (textFrom p j bs) = some bs := by
  obtain ⟨-, -, -, -, hsuffix, -, hx, -⟩ := Params.textOk_iff.mp hp
  induction bs generalizing j with
  | nil => exact absurd rfl hne
  | cons b bs ih =>
    cases bs with
    | nil =>
      have hend : parse (p.txtSuffix ++ []) = parse [] :=
        parse_append_of_no0x hsuffix (by simp)
      rw [textFrom_singleton, ← List.append_nil (emission p j true b),
        parse_emission_append hp j true b (by simpa using hx) hend]
      rfl
    | cons c bs =>
      have hsep : parse (separator ++ textFrom p (j + 1) (c :: bs)) =
          parse (textFrom p (j + 1) (c :: bs)) :=
        parse_append_of_no0x rfl (head?_textFrom hp j c bs)
      rw [textFrom_cons_cons,
        parse_emission_append hp j false b (by simp [separator, chComma, chX]) hsep,
        ih (by simp)]
      rfl

end

/-- Settles O34: render is the text from position 0, and each emission parses to its byte. -/
theorem renderParsesBack : Obligations.RenderParsesBack := by
  intro p bs u hp hu
  obtain ⟨hne, rfl⟩ := render_eq_some hu
  exact parse_textFrom hp bs hne 0

/-! ## Length and characters -/

/-- The length of what a TXE appends. -/
theorem length_emission (p : Params) (j : Nat) (blast : Bool) (b : Byte) :
    (emission p j blast b).length =
      (if j = 0 then p.txtPrefix.length else 0) + (rowBreak p j).length + 4 +
        (if blast then p.txtSuffix.length else 2) := by
  rw [emission, List.length_append, List.length_append, List.length_append, length_entry]
  congr 1
  · congr 2
    split <;> rfl
  · split <;> rfl

/-- The length of the text from a position on; the breaks before the position are counted on the
left. -/
theorem length_textFrom (p : Params) (bs : List Byte) (hne : bs ≠ []) (j : Nat) :
    (textFrom p j bs).length + breakCount p j * p.txtBrk.length =
      (if j = 0 then p.txtPrefix.length else 0) + 4 * bs.length + 2 * (bs.length - 1) +
        breakCount p (j + bs.length) * p.txtBrk.length + p.txtSuffix.length := by
  induction bs generalizing j with
  | nil => exact absurd rfl hne
  | cons b bs ih =>
    have hbreak := breakCount_succ p j
    cases bs with
    | nil =>
      rw [textFrom_singleton, length_emission, List.length_singleton]
      simp only [if_true]
      omega
    | cons c bs =>
      have hrest := ih (by simp) (j + 1)
      rw [textFrom_cons_cons, List.length_append, length_emission]
      rw [List.length_cons (a := b), show j + ((c :: bs).length + 1) = j + 1 + (c :: bs).length by
        omega]
      rw [List.length_cons] at hrest ⊢
      simp only [Bool.false_eq_true, if_false, Nat.succ_ne_zero] at hrest ⊢
      omega

/-- Settles O35: there is no break before the text of no byte. -/
theorem renderLength : Obligations.RenderLength := by
  intro p bs hne
  refine ⟨textFrom p 0 bs, render_eq_textFrom p hne, ?_⟩
  have hzero : breakCount p 0 = 0 := by
    rw [breakCount, rowLen]
    split <;> rfl
  have hlen := length_textFrom p bs hne 0
  rw [hzero, if_pos rfl, Nat.zero_mul, Nat.add_zero, Nat.zero_add] at hlen
  exact hlen

theorem isAscii_append (t u : Text) : isAscii (t ++ u) = (isAscii t && isAscii u) :=
  List.all_append

/-- An entry is ASCII, its digits being so. -/
theorem isAscii_entry (b : Byte) : isAscii (entry b) = true := by
  have hdigit (d : BitVec 4) : (hexDigit d).toNat < 128 := by revert d; decide
  simp [isAscii, entry, hex2, hdigit, chZero, chX]

section
variable {p : Params} (hprefix : isAscii p.txtPrefix = true) (hsuffix : isAscii p.txtSuffix = true)
  (hbrk : isAscii p.txtBrk = true)
include hprefix hsuffix hbrk

theorem isAscii_emission (j : Nat) (blast : Bool) (b : Byte) :
    isAscii (emission p j blast b) = true := by
  have hstart : isAscii (if j = 0 then p.txtPrefix else []) = true := by
    split
    · exact hprefix
    · rfl
  have hbreak : isAscii (rowBreak p j) = true := by
    rw [rowBreak]
    split
    · exact hbrk
    · rfl
  have hend : isAscii (if blast then p.txtSuffix else separator) = true := by
    cases blast
    · rfl
    · exact hsuffix
  simp only [emission, isAscii_append, hstart, hbreak, isAscii_entry, hend, Bool.and_self]

theorem isAscii_textFrom (bs : List Byte) (hne : bs ≠ []) (j : Nat) :
    isAscii (textFrom p j bs) = true := by
  induction bs generalizing j with
  | nil => exact absurd rfl hne
  | cons b bs ih =>
    cases bs with
    | nil =>
      rw [textFrom_singleton]
      exact isAscii_emission hprefix hsuffix hbrk j true b
    | cons c bs =>
      rw [textFrom_cons_cons, isAscii_append, isAscii_emission hprefix hsuffix hbrk,
        ih (by simp)]
      rfl

end

/-- Settles O36: render is the text from position 0, and each emission is ASCII. -/
theorem renderIsAscii : Obligations.RenderIsAscii := by
  intro p bs u hprefix hsuffix hbrk hu
  obtain ⟨hne, rfl⟩ := render_eq_some hu
  exact isAscii_textFrom hprefix hsuffix hbrk bs hne 0

end Sys2Proof.Machine
end

section
/-! Proofs of the statements about OUT, TXT and a whole run (spec 20_memory.md, 42_pixel_pipeline.md
section 3, 43_text_renderer.md section 3): every step of a run keeps the invariant and does one unit of
its work, so the run ends, and the invariant says what it leaves. -/

namespace Sys2Proof.Machine

/-! ## OUT -/

/-- Settles O23: none of the three units' updates is the pixel step. -/
theorem otherUnitsLeaveOutAlone : Obligations.OtherUnitsLeaveOutAlone := by
  intro i s t h hi
  obtain ⟨v, rfl, rfl⟩ | ⟨r, g, b, a, rfl, rfl⟩ | ⟨last, r, g, b, a, hpix, rfl⟩ |
    ⟨blast, b, rfl, -, rfl⟩ := exec_cases h
  · exact ⟨fun _ => rfl, rfl, rfl, rfl, rfl, fun _ => ⟨rfl, rfl, rfl, rfl⟩,
      fun hne => absurd rfl (hne v), fun _ => rfl⟩
  · exact ⟨fun _ => rfl, rfl, rfl, rfl, rfl, fun _ => ⟨rfl, rfl, rfl, rfl⟩, fun _ => rfl,
      fun hne => absurd rfl (hne r g b a)⟩
  · obtain rfl | ⟨rfl, -⟩ := hpix <;> simp at hi
  · exact ⟨fun _ => rfl, rfl, rfl, rfl, rfl, fun hne => absurd rfl (hne blast b), fun _ => rfl,
      fun _ => rfl⟩

/-- Settles O24: an operation writes one cell or none, and the other steps empty OUT. -/
theorem stepKeepsOutCanonical : Obligations.StepKeepsOutCanonical := by
  intro s t h hwf
  obtain ⟨-, rfl⟩ | ⟨w, s', -, hf, hx⟩ | ⟨-, -, hm⟩ := step_cases h
  · rfl
  · have hs' : s'.out = s.out := by rw [fetch_frame hf]
    obtain ht | ⟨v, ht⟩ := out_exec hx
    · rwa [ht, hs']
    · rw [ht, hs']
      exact Memory.wf_write s.out s'.k v hwf
  · rw [(hostMove_clears hm).1]
    rfl

/-- Settles O26: reset leaves a cleared block. -/
theorem resetMeetsTheRunInvariant : Obligations.ResetMeetsTheRunInvariant :=
  ⟨runInv_of_cleared rfl rfl rfl rfl rfl rfl, reset_out_wf⟩

/-- Settles O27: OUT is the cells of the consumed transactions' bytes, and these are the first of
PIXIN. -/
theorem outIsTheImageOfPixin : Obligations.OutIsTheImageOfPixin := by
  intro s hinv x
  rw [hinv.1.cells, Memory.read_cellsFrom, if_pos (Nat.zero_le x), ← hinv.1.cells, Nat.sub_zero,
    List.getElem?_map, State.consumed, List.getElem?_take]
  split <;> rfl

/-! ## TXT -/

/-- Settles O28: when nothing waits at TXR it has rendered all consumed transactions, and these are
framed. -/
theorem textOfAnEndedRunIsRenderOfOut : Obligations.TextOfAnEndedRunIsRenderOfOut := by
  intro s hinv htxr he hq
  obtain ⟨m, hm, hwait, htxt, hj⟩ := hinv.2.rendered htxr
  have hlen := hinv.1.length_consumed
  have hall : m = s.out.length := by
    rw [hq, eq_comm, List.map_eq_nil_iff, List.drop_eq_nil_iff] at hwait
    omega
  rw [hall, ← hlen, List.take_length] at htxt
  rw [htxt, hj, if_pos ⟨he, hall⟩, hinv.1.cells, Memory.bytes_cellsFrom]
  exact ⟨render_eq_emitAll s.params (hinv.1.framed he).2, rfl⟩

/-! ## A run to its end -/

/-- What a run has still to do: PIX's step and, with TXR, TXR's for each transaction not yet consumed,
and TXR's for each that waits. -/
def stepsLeft (s : State) : Nat :=
  frameSteps s.params (s.pixin.length - s.out.length) + s.txrIn.length

/-- A framed PIXIN has ended exactly when all of it has been consumed. -/
theorem OutInv.ended_iff {s : State} (h : OutInv s) (hwf : frameWf s.pixin = true) :
    s.ended = true ↔ s.out.length = s.pixin.length := by
  constructor
  · intro he
    obtain ⟨init, w, hcons, -, -⟩ := (frameWf_iff _).mp (h.framed he).2
    have hlen := h.length_consumed
    rw [hcons, List.length_append, List.length_singleton] at hlen
    have hfinal : s.consumed[init.length]? = some w := by simp [hcons]
    have hlast : lastOf w = true :=
      (lastOf_iff_final (h.framed he).2 hfinal).mpr (by rw [hcons]; simp)
    rw [State.consumed, List.getElem?_take, if_pos (by omega)] at hfinal
    rw [← hlen]
    exact (lastOf_iff_final hwf hfinal).mp hlast
  · intro hlen
    by_contra hne
    obtain ⟨init, w, hpix, hw, -⟩ := (frameWf_iff _).mp hwf
    have hnolast := (h.running (by simpa using hne)).2 w
    rw [State.consumed, hlen, List.take_length, hw] at hnolast
    exact absurd (hnolast (by simp [hpix])) (by decide)

section
variable {s : State} (hinv : RunInv s) (hwf : frameWf s.pixin = true) (hr : s.resetIn = false)
  (hq : s.qntIn = []) (hp : s.pckIn = [])
include hinv hwf hr hq hp

/-- While a run has steps left, the next step is one of them: TXR's if a word waits, else PIX's. -/
theorem step_of_stepsLeft {n : Nat} (hn : stepsLeft s = n + 1) :
    ∃ t, step s = .next t ∧ SameOutside s t ∧ stepsLeft t = n := by
  cases htxr : s.txrIn with
  | cons v rest =>
    have hT := hasTxr_of_txrIn_ne_nil hinv.2 (by simp [htxr])
    obtain ⟨w, -, rfl, -, -⟩ := txrIn_head hinv htxr
    rw [step_of_fetch hr (fetch_txr hq hp htxr), decode_feedWord,
      exec_txe (s := { s with txrIn := rest }) hT]
    refine ⟨_, rfl, ⟨rfl, rfl, rfl, rfl, rfl, rfl, rfl, rfl⟩, ?_⟩
    rw [stepsLeft, htxr, List.length_cons] at hn
    exact Nat.succ.inj hn
  | nil =>
    rw [stepsLeft, htxr, List.length_nil, Nat.add_zero] at hn
    have hlt : s.out.length < s.pixin.length := by
      by_contra hge
      rw [Nat.sub_eq_zero_of_le (by omega), frameSteps] at hn
      split at hn <;> omega
    have he : s.ended = false := by
      by_contra hne
      have := (hinv.1.ended_iff hwf).mp (by simpa using hne)
      omega
    have hw : s.pixin[s.k]? = some s.pixin[s.out.length] := by
      rw [(hinv.1.running he).1, List.getElem?_eq_getElem hlt]
    rw [step_of_fetch hr (fetch_pix hq hp htxr he hw), exec_decode_pix]
    refine ⟨_, rfl, ⟨rfl, rfl, rfl, rfl, rfl, rfl, rfl, rfl⟩, ?_⟩
    rw [stepsLeft, length_out_putPixel hinv.1 he, State.putPixel_params, State.putPixel_pixin,
      State.putPixel_txrIn, htxr]
    rw [frameSteps] at hn ⊢
    cases hT : s.params.hasTxr with
    | true =>
      simp only [hT, if_true, List.nil_append, List.length_singleton] at hn ⊢
      omega
    | false =>
      simp only [hT, Bool.false_eq_true, if_false, List.length_nil] at hn ⊢
      omega

/-- A run does its remaining steps, and has then consumed PIXIN and rendered all of it. -/
theorem stepN_stepsLeft {n : Nat} (hn : stepsLeft s = n) :
    ∃ t, stepN n s = .next t ∧ SameOutside s t ∧ RunInv t ∧ stepsLeft t = 0 := by
  induction n generalizing s with
  | zero => exact ⟨s, rfl, ⟨rfl, rfl, rfl, rfl, rfl, rfl, rfl, rfl⟩, hinv, hn⟩
  | succ n ih =>
    obtain ⟨t, hstep, hsame, hleft⟩ := step_of_stepsLeft hinv hwf hr hq hp hn
    obtain ⟨u, hrun, hsame', hu, hzero⟩ :=
      ih (stepKeepsTheRunInvariant s t hinv hstep) (by rwa [hsame.pixin])
        (hsame.resetIn.trans hr) (hsame.qntIn.trans hq) (hsame.pckIn.trans hp) hleft
    exact ⟨u, by rw [stepN, hstep]; exact hrun, hsame.trans hsame', hu, hzero⟩

end

/-- A run with no step left has consumed all of PIXIN, and nothing waits at TXR. -/
theorem consumed_of_stepsLeft_zero {s : State} (hinv : RunInv s) (hwf : frameWf s.pixin = true)
    (h : stepsLeft s = 0) : s.ended = true ∧ s.consumed = s.pixin ∧ s.txrIn = [] := by
  obtain ⟨hframe, hq⟩ := Nat.add_eq_zero_iff.mp h
  have hle := hinv.1.length_le
  have hlen : s.out.length = s.pixin.length := by
    rw [frameSteps] at hframe
    split at hframe <;> omega
  exact ⟨(hinv.1.ended_iff hwf).mpr hlen, by rw [State.consumed, hlen, List.take_length],
    List.eq_nil_of_length_eq_zero hq⟩

/-- Settles O29: at the start of a run the steps left are those of the frame, and at its end the
invariant gives OUT and TXT. -/
theorem frameRunConvertsTheFrame : Obligations.FrameRunConvertsTheFrame := by
  rintro s F hF ⟨hr, hq, hp, htxr, hk, hj, he, hout, htxt, hpix⟩
  have hwf : frameWf s.pixin = true := by rw [hpix, frameWf_frameWords hF]
  have hn : stepsLeft s = frameSteps s.params F.length := by
    rw [stepsLeft, htxr, hout, hpix, length_frameWords]
    rfl
  obtain ⟨t, hrun, hsame, hinv, hzero⟩ :=
    stepN_stepsLeft (runInv_of_cleared hout hk hj he htxt htxr) hwf hr hq hp hn
  obtain ⟨hte, hcons, htq⟩ :=
    consumed_of_stepsLeft_zero hinv (by rwa [hsame.pixin]) hzero
  have hcells := hinv.1.cells
  rw [hcons, hsame.pixin, hpix, map_wordByte_frameWords] at hcells
  have hbytes : Memory.bytes t.out = convert F := by rw [hcells, Memory.bytes_cellsFrom]
  have htext (hT : s.params.hasTxr = true) : render s.params (convert F) = some t.txt ∧ t.j = 0 := by
    rw [← hsame.params] at hT ⊢
    rw [← hbytes]
    exact textOfAnEndedRunIsRenderOfOut t hinv hT hte htq
  have hnotext (hT : s.params.hasTxr = false) : t.txt = [] ∧ t.j = 0 := by
    rw [← hsame.params] at hT
    exact (hinv.2.absent hT).2
  have htj : t.j = 0 := by
    cases hT : s.params.hasTxr with
    | true => exact (htext hT).2
    | false => exact (hnotext hT).2
  exact ⟨t, hrun, hcells, hbytes, (hinv.1.framed hte).1, htj, hte, htq, hsame.pixin,
    fun hT => (htext hT).1, fun hT => (hnotext hT).1, hsame.params, hsame.jobs, hsame.active,
    hsame.reports, hsame.resetIn.trans hr, hsame.qntIn.trans hq, hsame.pckIn.trans hp⟩

end Sys2Proof.Machine
end

section
/-! Proofs of the statements about the HOST (spec 60_exceptions.md, 70_reset_and_hazards.md). -/

namespace Sys2Proof.Machine

/-! ## The checks -/

/-- The first check of R171: all three arguments are there (R166). -/
theorem checkInvocation_missing (p : Params) {inv : Invocation}
    (h : inv.platform = none ∨ inv.inputPath = none ∨ inv.outputPath = none) :
    checkInvocation p inv = .error .usage := by
  unfold checkInvocation
  split
  · next hplat hinp houtp => simp [hplat, hinp, houtp] at h
  · rfl

section
variable {p : Params} {tag : Text} (inp outp : Text) (F : List Pixel)

/-- The second check: the image was decoded (R170). -/
theorem checkInvocation_undecoded :
    checkInvocation p ⟨some tag, some inp, some outp, none⟩ = .error .decode := rfl

/-- The third check: the string is one of the tags (R167). -/
theorem checkInvocation_unknown (h : platformOf p tag = none) :
    checkInvocation p ⟨some tag, some inp, some outp, some F⟩ = .error .invalidPlatform := by
  simp only [checkInvocation, checkPlatform, h]

/-- The fourth check: the platform is not the smallest (R168). -/
theorem checkInvocation_smallest (h : platformOf p tag = some .smallest) :
    checkInvocation p ⟨some tag, some inp, some outp, some F⟩ = .error .unsupportedPlatform := by
  simp only [checkInvocation, checkPlatform, h]

/-- The last check: the image is not too large for a supported platform (R169). -/
theorem checkInvocation_supported {plat : Platform} (h : platformOf p tag = some plat)
    (hplat : plat ≠ .smallest) :
    checkInvocation p ⟨some tag, some inp, some outp, some F⟩ =
      if tooLarge F.length plat then .error .imageTooLarge else .ok F := by
  cases plat with
  | smallest => exact absurd rfl hplat
  | mid => simp only [checkInvocation, checkPlatform, h]
  | large => simp only [checkInvocation, checkPlatform, h]

end

/-- A string that is none of the three spellings names no platform (R167). -/
theorem platformOf_unknown {p : Params} {tag : Text} (ht : tag ≠ p.spellTintin)
    (hs : tag ≠ p.spellSnowy) (hc : tag ≠ p.spellChalk) : platformOf p tag = none := by
  simp only [platformOf, if_neg ht, if_neg hs, if_neg hc]

theorem tooLarge_iff (n : Nat) (plat : Platform) :
    tooLarge n plat = true ↔
      (24192 < n ∧ (plat = .smallest ∨ plat = .mid)) ∨ (32400 < n ∧ plat = .large) := by
  simp only [tooLarge, Bool.or_eq_true, Bool.and_eq_true, decide_eq_true_eq]
  exact Iff.rfl

/-! ## The step that begins an invocation -/

section
variable {s : State} {inv : Invocation} {rest : List Invocation} (hidle : HostIdle s)
  (hjobs : s.jobs = inv :: rest)
include hidle hjobs

theorem step_of_hostIdle : step s = launch s inv rest := by
  obtain ⟨hr, hf, hact⟩ := hidle
  rw [step_of_idle hr hf]
  simp only [hostMove, hact, hjobs]

/-- An invocation that fails a check is over in one step (R172). -/
theorem step_of_error {cls : ErrorClass} (h : checkInvocation s.params inv = .error cls) :
    step s = .next ({ s with jobs := rest }.raiseHost cls) := by
  rw [step_of_hostIdle hidle hjobs]
  simp only [launch, h]

/-- An invocation that fails none, and has pixels, starts a run (R176, R188). -/
theorem step_of_ok {F : List Pixel} (h : checkInvocation s.params inv = .ok F) (hF : F ≠ []) :
    step s = .next ({ s with jobs := rest }.startRun inv (frameWords F)) := by
  rw [step_of_hostIdle hidle hjobs]
  cases F with
  | nil => exact absurd rfl hF
  | cons t ts => simp only [launch, h]

end

/-- Settles O37: the first check fails, whatever else does. -/
theorem missingArgumentIsUsageError : Obligations.MissingArgumentIsUsageError := by
  intro s inv rest hidle hjobs hmissing
  exact ⟨_, step_of_error hidle hjobs (checkInvocation_missing s.params hmissing), rfl, rfl, rfl,
    rfl, rfl, rfl, rfl, rfl⟩

/-- Settles O38: the third check is the first to fail. -/
theorem unknownPlatformIsInvalid : Obligations.UnknownPlatformIsInvalid := by
  rintro s inv rest tag inp outp F hidle hjobs rfl ht hs hc
  have hcheck := checkInvocation_unknown inp outp F (platformOf_unknown ht hs hc)
  exact ⟨_, step_of_error hidle hjobs hcheck, rfl, rfl, rfl, rfl, rfl, rfl, rfl, rfl⟩

/-- Settles O39: the fourth check is the first to fail. -/
theorem smallestPlatformIsUnsupported : Obligations.SmallestPlatformIsUnsupported := by
  rintro s inv rest tag inp outp F hidle hjobs rfl hplat
  have hcheck := checkInvocation_smallest inp outp F hplat
  exact ⟨_, step_of_error hidle hjobs hcheck, rfl, rfl, rfl, rfl, rfl, rfl, rfl⟩

/-- Settles O40: on a supported platform the size rule alone decides between the error and the run. -/
theorem sizeBoundIsExact : Obligations.SizeBoundIsExact := by
  refine ⟨tooLarge_iff, ?_⟩
  rintro s inv rest tag inp outp F plat hidle hjobs rfl hplat hsupp hF
  have hcheck := checkInvocation_supported inp outp F hplat hsupp
  by_cases hlarge : tooLarge F.length plat = true
  · rw [if_pos hlarge] at hcheck
    refine ⟨_, step_of_error hidle hjobs hcheck, ?_⟩
    rw [if_pos hlarge]
    exact ⟨rfl, rfl, rfl, rfl, rfl, rfl, rfl⟩
  · rw [if_neg hlarge] at hcheck
    refine ⟨_, step_of_ok hidle hjobs hcheck hF, ?_⟩
    rw [if_neg hlarge]
    exact ⟨rfl, rfl, rfl, rfl, rfl, rfl, rfl⟩

/-- Settles O41: the second check is the first to fail. -/
theorem undecodableImageIsDecodeError : Obligations.UndecodableImageIsDecodeError := by
  rintro s inv rest tag inp outp plat hidle hjobs rfl - -
  have hcheck := checkInvocation_undecoded (p := s.params) (tag := tag) inp outp
  exact ⟨_, step_of_error hidle hjobs hcheck, rfl, rfl, rfl, rfl, rfl, rfl, rfl⟩

/-- Settles O42: one lemma a check. -/
theorem firstFailingCheckIsReported : Obligations.FirstFailingCheckIsReported := by
  intro p tag inp outp F
  exact ⟨fun inv => checkInvocation_missing p, checkInvocation_undecoded inp outp,
    checkInvocation_unknown inp outp F, checkInvocation_smallest inp outp F,
    fun plat => checkInvocation_supported inp outp F⟩

/-- Every error class comes with a message (R172). -/
theorem messageOf_failure_ne_none (cls : ErrorClass) : messageOf (.failure cls) ≠ none := by
  cases cls <;> exact Option.some_ne_none _

/-- Settles O43: an error of the HOST clears the block and reports its class. -/
theorem failedRunLeavesNoOutput : Obligations.FailedRunLeavesNoOutput := by
  intro s inv rest cls hidle hjobs hcheck
  exact ⟨_, step_of_error hidle hjobs hcheck, rfl, messageOf_failure_ne_none cls, rfl, rfl, rfl,
    rfl, rfl, rfl, rfl, rfl, rfl, rfl⟩

/-- Settles O45: neither render nor the launch has a meaning for the empty sequence. -/
theorem noPixelsNoMeaning : Obligations.NoPixelsNoMeaning := by
  refine ⟨fun p => if_pos rfl, fun s inv rest hidle hjobs hcheck => ?_⟩
  rw [step_of_hostIdle hidle hjobs]
  simp only [launch, hcheck]

/-- Settles O46: each spelling is met before or apart from the others. -/
theorem tagsNameThePlatforms : Obligations.TagsNameThePlatforms := by
  intro p hts htc hsc
  refine ⟨?_, fun hsmall => ⟨?_, ?_⟩, fun hsmall => ⟨?_, ?_⟩⟩
  · simp [platformOf, htc.symm, hsc.symm]
  · simp [platformOf, hsmall]
  · simp [platformOf, hts.symm, hsmall]
  · simp [platformOf, hts.symm, hsmall]
  · simp [platformOf, hsmall]

/-! ## An invocation to its report -/

/-- A run that has ended, with no word waiting anywhere, is taken in one step (R187, R190). -/
theorem step_of_ended {s : State} {inv : Invocation} (hr : s.resetIn = false)
    (hf : fetch s = none) (hact : s.active = some inv) (he : s.ended = true) :
    step s = .next (s.collect inv) := by
  rw [step_of_idle hr hf]
  simp only [hostMove, hact, he, if_true]

/-- Settles O44: one step launches the frame, the run converts it, and one step takes OUT and TXT. -/
theorem hostRunDeliversTheFiles : Obligations.HostRunDeliversTheFiles := by
  rintro s inv rest tag inp outp F hidle hq hp hjobs rfl hF hcheck
  have hstart := step_of_ok hidle hjobs hcheck hF
  have hloaded : Loaded ({ s with jobs := rest }.startRun
      ⟨some tag, some inp, some outp, some F⟩ (frameWords F)) F :=
    ⟨hidle.1, hq, hp, rfl, rfl, rfl, rfl, rfl, rfl, rfl⟩
  obtain ⟨t, hrun, -, hbytes, -, -, he, htxr, -, htext, -, hparams, hjobs', hact, hreports, hr,
    hq', hp'⟩ := frameRunConvertsTheFrame _ F hF hloaded
  have htake := step_of_ended hr (fetch_none hq' hp' htxr (.inl he)) hact he
  have hlaunch : stepN 1 s = .next ({ s with jobs := rest }.startRun
      ⟨some tag, some inp, some outp, some F⟩ (frameWords F)) := by
    simp only [stepN, hstart]
  have hframe := (stepN_add (frameSteps s.params F.length) hlaunch).trans hrun
  refine ⟨t.collect ⟨some tag, some inp, some outp, some F⟩, Memory.bytes t.out,
    if t.params.hasTxr then some t.txt else none, ?_, ?_, hbytes, ?_, fun hT => ?_, fun hT => ?_,
    rfl, rfl, hjobs', hparams⟩
  · rw [stepN_add 1 hframe]
    simp only [stepN, htake]
  · rw [State.collect_reports, hreports]
    rfl
  · rw [hbytes, List.length_map]
  · have hrender := htext hT
    rw [hparams, State.startRun_params, if_pos hT, hbytes]
    exact ⟨hrender.symm, Option.some_ne_none _⟩
  · rw [hparams, State.startRun_params, hT]
    rfl

end Sys2Proof.Machine
end

section
/-! Proofs of the statements about the whole machine: its steps, its reset, and what it does not read
(spec 10_state.md, 70_reset_and_hazards.md). -/

namespace Sys2Proof.Machine

/-! ## Steps -/

/-- Settles O47: each port is fetched from when those before it are empty. -/
theorem stepRunsTheDecodedOperation : Obligations.StepRunsTheDecodedOperation := by
  intro s hr
  exact ⟨fun w rest hq => step_of_fetch hr (fetch_qnt hq),
    fun w rest hq hp => step_of_fetch hr (fetch_pck hq hp),
    fun w rest hq hp ht => step_of_fetch hr (fetch_txr hq hp ht),
    fun w hq hp ht he hw => step_of_fetch hr (fetch_pix hq hp ht he hw)⟩

/-- Settles O48: with nothing offered the HOST would move, and it has nothing to do. -/
theorem nothingOfferedNoStep : Obligations.NothingOfferedNoStep := by
  refine ⟨rfl, fun s hr hq hp ht hend hhost => ?_⟩
  rw [step_of_idle hr (fetch_none hq hp ht hend)]
  obtain ⟨hact, hjobs⟩ | ⟨hact, he⟩ := hhost
  · simp only [hostMove, hact, hjobs]
  · obtain ⟨inv, hact⟩ := Option.ne_none_iff_exists'.mp hact
    simp only [hostMove, hact, he, Bool.false_eq_true, if_false]

/-- Settles O49: the word the number is read as is presented, and the presented word is fetched. -/
theorem presentedWordRunsNext : Obligations.PresentedWordRunsNext := by
  intro s nbits n i h
  unfold decodeTableWord at h
  split at h
  · next w hread =>
    obtain ⟨s', hf, hk, hj, hout, htxt, hr⟩ := fetch_present s w
    refine ⟨s', ?_, hk, hj, hout, htxt⟩
    simp only [State.withFetchWord, hread]
    rw [step_of_fetch hr hf, Option.some.inj h]
  · cases h

/-- Settles O52: only TXE has a branch that answers no next state. -/
theorem coreAlwaysCompletes : Obligations.CoreAlwaysCompletes := by
  intro i s h
  cases i with
  | qnt v => exact ⟨_, exec_qnt v s⟩
  | pck r g b a => exact ⟨_, exec_pck r g b a s⟩
  | pix4 last r g b a => exact ⟨_, exec_pix4 last r g b a s⟩
  | pix3 last r g b => exact ⟨_, exec_pix3 last r g b s⟩
  | txe blast b =>
    obtain hT | hno := h
    · exact ⟨_, exec_txe hT blast b⟩
    · exact absurd rfl (hno blast b)

/-- Settles O53: neither the reset, nor the core, nor the HOST writes them. -/
theorem stepKeepsTheParameters : Obligations.StepKeepsTheParameters := by
  intro s t h
  obtain ⟨-, rfl⟩ | ⟨w, s', -, hf, hx⟩ | ⟨-, -, hm⟩ := step_cases h
  · rfl
  · rw [(sameOutside_exec hx).params, fetch_frame hf]
  · obtain ⟨-, -, -, -, -, -, hparams⟩ := hostMove_clears hm
    exact hparams

/-- Settles O54: of the three kinds of step only the HOST's move writes PIXIN, and its cases are the
three of the statement. -/
theorem onlyTheHostWritesPixin : Obligations.OnlyTheHostWritesPixin := by
  intro s t h
  obtain ⟨hr, rfl⟩ | ⟨w, s', hr, hf, hx⟩ | ⟨hr, hf, hm⟩ := step_cases h
  · exact ⟨fun _ => rfl, fun hno => absurd (hr.symm.trans hno) (by decide)⟩
  · refine ⟨fun _ => ?_, fun _ hnone => absurd (hf.symm.trans hnone) (by simp)⟩
    rw [(sameOutside_exec hx).pixin, fetch_frame hf]
  · refine ⟨fun hother => ?_, fun _ _ => ?_⟩
    · simp [hr, hf] at hother
    · obtain ⟨inv, hact, he, rfl⟩ | ⟨inv, rest, cls, hact, hjobs, hc, rfl⟩ |
        ⟨inv, rest, F, hact, hjobs, hF, hc, rfl⟩ := hostMove_cases hm
      · exact .inl ⟨by simp [hact], he, rfl, rfl⟩
      · exact .inr ⟨inv, rest, hact, hjobs, rfl, .inl ⟨cls, hc, rfl⟩⟩
      · exact .inr ⟨inv, rest, hact, hjobs, rfl, .inr ⟨F, hF, hc, rfl, rfl⟩⟩

/-! ## Reset, and the end of a run -/

/-- Settles O50: each field is read off the reset state. -/
theorem resetValues : Obligations.ResetValues := ⟨rfl, rfl, rfl, rfl, rfl, rfl, rfl, rfl, rfl⟩

theorem step_of_reset {s : State} (h : s.resetIn = true) : step s = .next s.applyReset := if_pos h

/-- Settles O51: the served reset clears the block's own fields and the reset input. -/
theorem resetInputDiscardsTheFrame : Obligations.ResetInputDiscardsTheFrame := by
  intro s h
  exact step_of_reset h

/-- Settles O57: the run is taken in one step, after which neither a word waits nor a frame is presented,
so that a reset finds nothing to clear. -/
theorem takenRunLeavesNothing : Obligations.TakenRunLeavesNothing := by
  intro s inv outp hr hf hact hpath he
  obtain ⟨hq, hp, -, -⟩ := ports_of_fetch_none hf
  have htaken : s.collect inv = { State.reset with
      params := s.params
      jobs := s.jobs
      reports := s.reports ++
        [.success outp (Memory.bytes s.out) (if s.params.hasTxr then some s.txt else none)] } := by
    simp only [State.collect, State.endRun, State.clearBlock, hpath, hr, hq, hp]
    rfl
  refine ⟨_, _, step_of_ended hr hf hact he, htaken, ?_, step_of_reset rfl, ?_⟩
  · exact fetch_none hq hp rfl (.inr rfl)
  · rw [htaken]
    rfl

/-! ## What is not read -/

/-- The core reads no latency. -/
theorem exec_withLatency (i : Instr) (s : State) (n : Nat) :
    exec i (s.withLatency n) = mapNext (State.withLatency n) (exec i s) := by
  cases i with
  | qnt v => rfl
  | pck r g b a => rfl
  | pix4 last r g b a => rfl
  | pix3 last r g b => rfl
  | txe blast b =>
    simp only [exec, execTxe, apply_ite (mapNext (State.withLatency n))]
    rfl

/-- The transaction fetched, and whether there is one, are the same whatever the latency. -/
theorem fetch_withLatency (s : State) (n : Nat) :
    fetch (s.withLatency n) = (fetch s).map fun (w, s') => (w, s'.withLatency n) := by
  cases hf : fetch s with
  | none =>
    obtain ⟨hq, hp, ht, hend⟩ := ports_of_fetch_none hf
    exact fetch_none (s := s.withLatency n) hq hp ht hend
  | some ws =>
    obtain ⟨w, s'⟩ := ws
    obtain ⟨v, rest, rfl, hq, rfl⟩ | ⟨v, rest, rfl, hq, hp, rfl⟩ |
      ⟨v, rest, rfl, hq, hp, ht, rfl⟩ | ⟨v, rfl, hq, hp, ht, he, hv, rfl⟩ := fetch_cases hf
    · exact fetch_qnt (s := s.withLatency n) hq
    · exact fetch_pck (s := s.withLatency n) hq hp
    · exact fetch_txr (s := s.withLatency n) hq hp ht
    · exact fetch_pix (s := s'.withLatency n) hq hp ht he hv

theorem launch_withLatency (s : State) (inv : Invocation) (rest : List Invocation) (n : Nat) :
    launch (s.withLatency n) inv rest = mapNext (State.withLatency n) (launch s inv rest) := by
  have hcheck : checkInvocation (s.withLatency n).params inv = checkInvocation s.params inv := rfl
  rw [launch, launch, hcheck]
  cases checkInvocation s.params inv with
  | error cls => rfl
  | ok F => cases F <;> rfl

/-- The HOST reads no latency. -/
theorem hostMove_withLatency (s : State) (n : Nat) :
    hostMove (s.withLatency n) = mapNext (State.withLatency n) (hostMove s) := by
  have hactive : (s.withLatency n).active = s.active := rfl
  have hended : (s.withLatency n).ended = s.ended := rfl
  have hpending : (s.withLatency n).jobs = s.jobs := rfl
  rw [hostMove, hostMove, hactive, hended, hpending]
  cases s.active with
  | some inv => cases s.ended <;> rfl
  | none =>
    cases s.jobs with
    | nil => rfl
    | cons inv rest => exact launch_withLatency s inv rest n

/-- Settles O55: the reset, the fetch, the core and the HOST go the same way. -/
theorem latencyIsUnobservable : Obligations.LatencyIsUnobservable := by
  intro s n
  have hresetIn : (s.withLatency n).resetIn = s.resetIn := rfl
  rw [step, step, hresetIn, fetch_withLatency]
  cases s.resetIn with
  | true => rfl
  | false =>
    cases fetch s with
    | none => exact hostMove_withLatency s n
    | some ws => exact exec_withLatency (decode ws.1) ws.2 n

/-- Settles O56: no operation reads or writes what `withDriver` replaces. -/
theorem coreIgnoresTheHost : Obligations.CoreIgnoresTheHost := by
  intro i s jobs active reports tag u v w
  cases i with
  | qnt v => rfl
  | pck r g b a => rfl
  | pix4 last r g b a => rfl
  | pix3 last r g b => rfl
  | txe blast b =>
    simp only [exec, execTxe, apply_ite (mapNext (State.withDriver jobs active reports tag u v w))]
    rfl

end Sys2Proof.Machine
end
